-- ==== Sys2Proof/Word.lean ====
section
/-! DEFINITION. The kinds of value the block's wires carry (spec/10_state.md R12 to R16): bytes, the 32-bit word,
the sign multiplier, the exact value, and the record of all wires of one invocation. Types only. -/

namespace Sys2Proof

/-- An unsigned 8-bit integer, bit 7 the high bit (R5, R30). -/
abbrev Byte := BitVec 8

/-- The Decoded Bits: a 32-bit unsigned word, bit 0 the least significant (R5, R12, R72). -/
abbrev Word := BitVec 32

/-- The sign multiplier `sign_mul`: +1 or -1 and nothing else (R16, R90). -/
inductive SignMul where
  | plus
  | minus
deriving DecidableEq, Repr, Inhabited

/-- An exact dyadic rational `(+1 or -1) * n * 2^k` with `n` a natural number and `k` an integer: the form in which
R6 defines the decoded value. The number it denotes is `Value.toRat` (Machine/Numbers.lean). -/
structure Value where
  mul : SignMul
  n   : Nat
  k   : Int
deriving DecidableEq, Repr, Inhabited

/-- Format PAYLOAD4: the four bytes of one field, `b0` the byte at the lowest index (R50). -/
structure Payload4 where
  b0 : Byte
  b1 : Byte
  b2 : Byte
  b3 : Byte
deriving DecidableEq, Repr, Inhabited

/-- All transient values and value outputs of one invocation (R12 to R16), each with the width of the summary table
in spec/10_state.md section 3. `expSigned` and `scaleK` are integers, as R14 and R16 ask of a model; their 9-bit
ports are views (Machine/Ports.lean). -/
structure Wires where
  b0          : Byte
  b1          : Byte
  b2          : Byte
  b3          : Byte
  bits        : Word
  sign        : BitVec 1
  expField    : BitVec 8
  expSigned   : Int
  mantissa    : BitVec 23
  significand : BitVec 24
  signMul     : SignMul
  scaleK      : Int
  v           : Value
  value64     : BitVec 64
deriving DecidableEq, Repr, Inhabited

end Sys2Proof
end

