-- ==== Sys2Proof/Syntax.lean ====
section
/-! DEFINITION. The operations of the block (R58, spec/opcode_table.json) and the invocations a host makes (R59). -/

namespace Sys2Proof

/-- One constructor per row of spec/opcode_table.json. No row has an operand field: an operation takes its inputs from
the input ports (`buffer`, `len`, `offset`) and from the wires (R58's column "reads"). -/
inductive Instr where
  /-- FETCH4 (R70): the four bytes at `offset`. -/
  | fetch4
  /-- ASSEMBLE (R71): the 32-bit word. -/
  | assemble
  /-- XSIGN (R80): bit 31. -/
  | xsign
  /-- XEXP (R81): bits 30..23. -/
  | xexp
  /-- UNBIAS (R82): the signed exponent. -/
  | unbias
  /-- XMANT (R83): bits 22..0. -/
  | xmant
  /-- SIGNIF (R84): the implicit leading bit. -/
  | signif
  /-- SIGNMUL (R90): the sign multiplier. -/
  | signmul
  /-- SCALE (R91): the power of two and the exact value. -/
  | scale
  /-- PACK64 (R95): the value in binary64 encoding. -/
  | pack64
  /-- DECODE (R102): the Float Decoder as a whole. -/
  | decode
  /-- UPLINK.err (R110, R111): the row of UPLINK whose condition is `len < 4`. -/
  | uplinkErr
  /-- UPLINK.ok (R110, R112): the row of UPLINK whose condition is `len >= 4`. -/
  | uplinkOk
deriving DecidableEq, Repr

/-- The twelve named operations of R58: ten stages, DECODE (the block FDEC) and UPLINK (the block UADP). Which of them
happens "is fixed by which block is used", not by a bit pattern: this is the host's choice of block, written as data
(assumption log 1). -/
inductive Operation where
  | fetch4
  | assemble
  | xsign
  | xexp
  | unbias
  | xmant
  | signif
  | signmul
  | scale
  | pack64
  | decode
  | uplink
deriving DecidableEq, Repr

/-- What a host puts on the input ports: the whole buffer, "already fully received" (R37), whose length is `len`, and
an offset, which the caller may omit (R59, R107). -/
structure Inputs where
  bytes  : List Byte
  offset : Option Nat
deriving DecidableEq, Repr, Inhabited

/-- One invocation (R150): the operation used, and the inputs presented for it. `none` means that the host keeps the
inputs it presented before (R37, R135: inputs stay until the host has taken the result; assumption log 2). UADP has no
offset input (R11), so an offset in the inputs of an UPLINK is not looked at. -/
structure Invocation where
  op     : Operation
  inputs : Option Inputs
deriving DecidableEq, Repr

/-- The two invocations that the source's contracts spell (R59): `decode(buffer, offset)` with an offset that may be
omitted, and `handleUplink(input)` with `input.bytes`. -/
inductive HostCall where
  | decode (buffer : List Byte) (offset : Option Nat)
  | handleUplink (bytes : List Byte)
deriving DecidableEq, Repr

end Sys2Proof
end

