-- ==== Sys2Proof/WellFormed.lean ====
section
/-! DEFINITION. When a row of the operation table applies to the inputs on the ports: the `condition` entries of the
two UPLINK rows and the precondition of FETCH4 and DECODE ("Defined only when len >= offset + 4"). -/

namespace Sys2Proof

/-- The row applies to a buffer of length `len` and an offset `offset`. FETCH4 and DECODE carry the precondition of
R35 and R101, the rows of UPLINK their `condition` (R58, R111, R112); every other row takes every input (R54). -/
def Instr.wellFormed (i : Instr) (len offset : Nat) : Bool :=
  match i with
  | .fetch4 => decide (offset + 4 ≤ len)
  | .assemble => true
  | .xsign => true
  | .xexp => true
  | .unbias => true
  | .xmant => true
  | .signif => true
  | .signmul => true
  | .scale => true
  | .pack64 => true
  | .decode => decide (offset + 4 ≤ len)
  | .uplinkErr => decide (len < 4)
  | .uplinkOk => decide (4 ≤ len)

end Sys2Proof
end

