-- ==== Sys2Proof/Decode.lean ====
section
/-! DEFINITION. Which row of the operation table an invocation is (the decoder), and the encodings of spec/30: the
formats PAYLOAD4 and B32 written out as encoders. The spec gives no instruction word: every row's `mask` and `match`
are zero (R58, D12). The decoder is total and refuses nothing, because no bit pattern is illegal or reserved (R54). -/

namespace Sys2Proof

/-- The row performed when operation `op` is used on a buffer of length `len`: one row per operation, but for UPLINK,
whose two rows "are told apart by `len`" (R58). -/
def decodeOp (op : Operation) (len : Nat) : Instr :=
  match op with
  | .fetch4 => .fetch4
  | .assemble => .assemble
  | .xsign => .xsign
  | .xexp => .xexp
  | .unbias => .unbias
  | .xmant => .xmant
  | .signif => .signif
  | .signmul => .signmul
  | .scale => .scale
  | .pack64 => .pack64
  | .decode => .decode
  | .uplink => if len < 4 then .uplinkErr else .uplinkOk

/-- The operation a row belongs to (R58). -/
def Instr.operation : Instr → Operation
  | .fetch4 => .fetch4
  | .assemble => .assemble
  | .xsign => .xsign
  | .xexp => .xexp
  | .unbias => .unbias
  | .xmant => .xmant
  | .signif => .signif
  | .signmul => .signmul
  | .scale => .scale
  | .pack64 => .pack64
  | .decode => .decode
  | .uplinkErr => .uplink
  | .uplinkOk => .uplink

/-- `n` bytes of a number, the least significant first (R32). -/
def littleEndian : Nat → Nat → List Byte
  | 0, _ => []
  | n + 1, w => BitVec.ofNat 8 w :: littleEndian n (w / 256)

/-- A bare run of `nbits` bits, numbered as the table numbers them, laid out as the bytes of a payload. -/
def payloadOfWord (nbits w : Nat) : List Byte :=
  littleEndian ((nbits + 7) / 8) w

/-- Bits and nothing else, with no block named and no offset given, are the raw payload that the network server
delivers: `input.bytes` of the Uplink Adapter, whose inputs are `buffer` and `len` only (R11, R110). Its row is
selected by its length (assumption log 1). -/
def decodeTableWord (nbits w : Nat) : Option Instr :=
  some (decodeOp .uplink (payloadOfWord nbits w).length)

/-- The invocation that performs row `i` on the given inputs. -/
def encode (i : Instr) (bytes : List Byte) (offset : Option Nat) : Invocation :=
  { op := i.operation, inputs := some { bytes := bytes, offset := offset } }

/-- Format B32 (R51), most significant bit first: `s eeeeeeee mmmmmmmmmmmmmmmmmmmmmmm`. -/
def encodeB32 (sign : BitVec 1) (expField : BitVec 8) (mantissa : BitVec 23) : Word :=
  sign ++ expField ++ mantissa

/-- Format PAYLOAD4 (R50): the bytes of a word, bits 7..0 at the lowest index. -/
def encodePayload4 (w : Word) : List Byte :=
  [w.extractLsb' 0 8, w.extractLsb' 8 8, w.extractLsb' 16 8, w.extractLsb' 24 8]

/-- The invocation a host call is (R59, R60): FDEC performs DECODE, UADP performs UPLINK and has no offset input. -/
def HostCall.invocation : HostCall → Invocation
  | .decode buffer offset => { op := .decode, inputs := some { bytes := buffer, offset := offset } }
  | .handleUplink bytes => { op := .uplink, inputs := some { bytes := bytes, offset := none } }

end Sys2Proof
end

