-- ==== Sys2Proof/Config.lean ====
section
/-! DEFINITION. What an implementation fixes, and the free values. The design has "no configuration surface" (R4, R21).
`OFFSET_WIDTH` and `MAX_LEN`, the two open parameters of R4, are taken unbounded, as R11 allows (assumption log 4):
they are no constant here. What is left are two free values. -/

namespace Sys2Proof

/-- What wires carry while the spec says they carry nothing meaningful: FDEC's while the inputs on the ports are outside
its contract (R101), UADP's while no Result stands (R141, spec/93 U9) and in the failure form (R113, D18, spec/93 U6).
No body: nothing can be proved of any component of any draw (assumption log 3). -/
opaque Config.freeWires : Nat → Wires

/-- What the input ports carry when the block is used before the host has presented anything: the outputs are then "the
function of its current inputs", and unspecified (R25, R141, spec/93 U9). No body: nothing can be proved of any draw
(assumption log 3). -/
opaque Config.freeInputs : Nat → Inputs

end Sys2Proof
end

