-- ==== Sys2Proof/Machine/State.lean ====
section
/-! DEFINITION. The state of the model, as plain data: the input ports, the wires of FDEC and of the decoder inside UADP,
the Result of UADP, and the host's queue of invocations. The block itself keeps nothing between invocations (R10, R18
to R23); what stands here is what the spec names (R11 to R17) and what a model needs to hold it. -/

namespace Sys2Proof.Machine

/-- The Byte Buffer (R30): `len` bytes at the indices 0 .. `len`-1, listed sparsely as (index, byte) pairs, rising,
without the bytes equal to `Memory.unlisted` (Machine/Ops.lean). Read-only to the block (R36). -/
structure Memory where
  cells : List Host.Cell
  len   : Nat
deriving DecidableEq, Repr

/-- The one error kind of the design (R120, D13). It is reported in the Result; it stops nothing (R125). -/
inductive UplinkError where
  /-- The payload has fewer than 4 bytes (R121). -/
  | insufficientPayloadLength
deriving DecidableEq, Repr

/-- The Result of a UADP invocation: exactly one of two forms (R17, R113). -/
inductive Result where
  /-- `Result.ok(V)`. -/
  | ok (v : Value)
  /-- `Result.err(msgs)`: an ordered sequence of error strings, and no value. -/
  | err (msgs : List String)
deriving DecidableEq, Repr

/-- What stops the machine as a fault: nothing. The Float Decoder "has no internal error path" (R105, R123), the one
error of the design is a value of the Result (R125), and no trap, interrupt or exception exists (R127 to R129). -/
inductive Fault : Type
deriving DecidableEq, Repr

/-- Why a step, or a meaning, has no outcome. -/
inductive Refusal where
  /-- An instruction without a meaning. Raised by no arm of `exec` in this model. Safe. -/
  | notModelled (mnemonic : String)
  /-- FETCH4 or DECODE with `len < offset + 4`: "A model must not give such an invocation a value; it refuses it"
  (R35, R101, D8, spec/93 U1). Raised by `execFetch4` and `execDecode`. Safe: no value is invented. -/
  | outOfContract
  /-- A row of UPLINK whose `condition` entry does not hold: the row is not the operation performed (R58). Raised by
  `execUplinkErr` and `execUplinkOk`; the decoder never selects such a row, so no step raises it. Safe. -/
  | rowNotSelected
  /-- The host has no further invocation: the end of a program, which is a finite sequence of invocations (R150). A
  model has no moment between invocations (R141). Raised by `step`. Safe. -/
  | noInvocation
deriving DecidableEq, Repr

/-- The state. -/
structure State where
  /-- The input port `buffer` with its length `len` (R11, R30), of both blocks. -/
  mem          : Memory
  /-- The input port `offset` of FDEC (R11). UADP has none; the tie to 0 is inside it (R112). -/
  offset       : Nat
  /-- Transient values and value outputs of FDEC (R12 to R16). -/
  wires        : Wires
  /-- The same of the decoder inside UADP (R110, R116: "DECODE is used as a sub-block"). -/
  adapterWires : Wires
  /-- The outputs `ok` and `err` of UADP with what they carry (R17); `none` while UADP is not used on the inputs
  presented, when "neither `ok` nor `err` is to be read as a result" (R141). -/
  result       : Option Result
  /-- The model's own: whether the host has presented inputs yet (R25, R141; assumption log 2). -/
  presented    : Bool
  /-- The invocations the host has still to make, the next one first (R135, R150). Not state of the block. -/
  pending      : List Invocation
  /-- The model's own: how many draws of free values have been made (assumption log 3). -/
  freeCount    : Nat
deriving DecidableEq, Repr

/-- The wires of either decoder after power-up, which mean nothing (R141). The values named here are those of the all-zero
word, which lie in the ranges of R12 to R16 (assumption log 5); no step from reset reads them. -/
def State.resetWires : Wires where
  b0 := 0
  b1 := 0
  b2 := 0
  b3 := 0
  bits := 0
  sign := 0
  expField := 0
  expSigned := -127
  mantissa := 0
  significand := 0x800000
  signMul := .plus
  scaleK := -150
  v := { mul := .plus, n := 8388608, k := -150 }
  value64 := 0x3800000000000000

/-- The block after power-up. It holds no register (R25, R140); the host has presented nothing and wants nothing. Every
value is the model's choice (assumption log 5). -/
def State.reset : State where
  mem := { cells := [], len := 0 }
  offset := 0
  wires := State.resetWires
  adapterWires := State.resetWires
  result := none
  presented := false
  pending := []
  freeCount := 0

end Sys2Proof.Machine
end

