-- ==== Sys2Proof/Machine/Flags.lean ====
section
/-! DEFINITION. The only status the hardware produces: the form of the Result (R20), its two one-bit ports, its error
message, and how the host sees it (R61). No arithmetic flag, rounding mode or IEEE-754 exception flag exists. -/

namespace Sys2Proof.Machine

/-- The port `ok` (R17): 1 when the success form is produced. -/
def Result.okPort : Result → BitVec 1
  | .ok _ => 1#1
  | .err _ => 0#1

/-- The port `err` (R17): 1 when the failure form is produced. -/
def Result.errPort : Result → BitVec 1
  | .ok _ => 0#1
  | .err _ => 1#1

/-- The message of the error (R61, R111, R122): 26 characters. -/
def UplinkError.message : UplinkError → String
  | .insufficientPayloadLength => "Not enough bytes for float"

/-- A field of the object the host is shown (R61). -/
inductive HostField where
  /-- A mapping from keys to numbers. -/
  | mapping (entries : List (String × Value))
  /-- An ordered sequence of strings. -/
  | strings (items : List String)
deriving DecidableEq, Repr

/-- An object with named fields. -/
abbrev HostObject := List (String × HostField)

/-- The two objects of R61: one field `data` mapping the single key `rolling_avg` to the value, or one field `errors`. -/
def Result.hostObject : Result → HostObject
  | .ok v => [("data", .mapping [("rolling_avg", v)])]
  | .err msgs => [("errors", .strings msgs)]

end Sys2Proof.Machine
end

