-- ==== Sys2Proof/Machine/Operands.lean ====
section
/-! DEFINITION. The functions the stages compute, on bit vectors and integers of the widths of spec/10_state.md. Every shift
is logical and nothing is sign-extended (R72, R86, R143, R144). -/

namespace Sys2Proof.Machine

/-- The bias of the exponent field (R53). -/
def bias : Int := 127

/-- The number of mantissa bits, which moves the binary point below the leading bit (R92). -/
def fractionBits : Int := 23

/-- The difference of the biases of binary64 and binary32, 1023 - 127 (R57, R95). -/
def rebias : BitVec 11 := 896#11

/-- ASSEMBLE: `b0 | (b1 << 8) | (b2 << 16) | (b3 << 24)`, every byte first zero-extended to 32 bits (R71). -/
def assembleWord (b0 b1 b2 b3 : Byte) : Word :=
  b0.setWidth 32 ||| (b1.setWidth 32 <<< 8) ||| (b2.setWidth 32 <<< 16) ||| (b3.setWidth 32 <<< 24)

/-- XSIGN: `bits[31]` (R80). -/
def signOf (bits : Word) : BitVec 1 := bits.extractLsb' 31 1

/-- XEXP: `bits[30:23]` (R81). -/
def expFieldOf (bits : Word) : BitVec 8 := bits.extractLsb' 23 8

/-- XMANT: `bits[22:0]` (R83). -/
def mantissaOf (bits : Word) : BitVec 23 := bits.extractLsb' 0 23

/-- UNBIAS: `uint(exp_field) - 127`, an exact integer subtraction (R82). -/
def unbiased (expField : BitVec 8) : Int := (expField.toNat : Int) - bias

/-- SIGNIF: `0x800000 | zext_24(mantissa)`, for every word alike (R52, R84). -/
def significandOf (mantissa : BitVec 23) : BitVec 24 := 0x800000#24 ||| mantissa.setWidth 24

/-- SIGNMUL: -1 when `sign` = 1, +1 when it is 0 (R90). -/
def signMulOf (sign : BitVec 1) : SignMul := if sign = 1#1 then .minus else .plus

/-- SCALE, first output: `exp_signed - 23` (R91, R92). -/
def scaleExponent (expSigned : Int) : Int := expSigned - fractionBits

/-- SCALE, second output: `sign_mul * significand * 2^(exp_signed - 23)`, exact (R91, R93). -/
def scaledValue (signMul : SignMul) (significand : BitVec 24) (expSigned : Int) : Value :=
  { mul := signMul, n := significand.toNat, k := scaleExponent expSigned }

/-- PACK64: `sign || (zext_11(exp_field) + 896)[10:0] || mantissa || 0^29` (R95, R57). -/
def packed64 (sign : BitVec 1) (expField : BitVec 8) (mantissa : BitVec 23) : BitVec 64 :=
  sign ++ (expField.setWidth 11 + rebias) ++ mantissa ++ 0#29

end Sys2Proof.Machine
end

