-- ==== Sys2Proof/Machine/Ops.lean ====
section
/-! DEFINITION. The shared operations: reading the Byte Buffer, the stages as functions of the wires, presenting the
inputs of an invocation, decoding a field, producing the Result. -/

namespace Sys2Proof.Machine

/-- The byte that an index below `len` holds when the list does not name it: 0, so that a buffer's zero bytes are
left out of the list (assumption log 6). The host presents every byte of the buffer, so no byte is ever unwritten. -/
def Memory.unlisted : Byte := 0#8

/-- The byte listed for an index. -/
def Memory.lookup : List Host.Cell → Nat → Byte
  | [], _ => Memory.unlisted
  | (k, b) :: cells, a => if k = a then b else Memory.lookup cells a

/-- The byte at an index, meaningful below `len`. -/
def Memory.byteAt (m : Memory) (a : Nat) : Byte := Memory.lookup m.cells a

/-- One byte of the buffer; an index at or above `len` does not exist (R30, R39). -/
def Memory.read (m : Memory) (a : Nat) : Option Byte :=
  if a < m.len then some (m.byteAt a) else none

/-- `MemRead(addr, n)`: the bytes at `addr .. addr+n-1`, lowest index first, "defined only when `addr + n <= len`"
(R31, spec/00 section 5). -/
def Memory.memRead (m : Memory) (a n : Nat) : Option (List Byte) :=
  if a + n ≤ m.len then some ((List.range n).map fun i => m.byteAt (a + i)) else none

/-- The whole buffer as the sequence it is (R30). -/
def Memory.toBytes (m : Memory) : List Byte := (List.range m.len).map m.byteAt

/-- The cells of a sequence whose first byte has index `i`. -/
def Memory.cellsFrom : Nat → List Byte → List Host.Cell
  | _, [] => []
  | i, b :: bs =>
    if b = Memory.unlisted then Memory.cellsFrom (i + 1) bs else (i, b) :: Memory.cellsFrom (i + 1) bs

/-- The buffer a host presents (R11): the only operation that makes one. The block writes no memory (R36). -/
def Memory.ofBytes (bytes : List Byte) : Memory :=
  { cells := Memory.cellsFrom 0 bytes, len := bytes.length }

/-- Cells in canonical form: indices at least `lo`, rising, below `len`, and no byte equal to `unlisted`. -/
def Memory.cellsWf (len : Nat) : Nat → List Host.Cell → Bool
  | _, [] => true
  | lo, (a, b) :: cells =>
    decide (lo ≤ a) && decide (a < len) && decide (b ≠ Memory.unlisted) && Memory.cellsWf len (a + 1) cells

/-- The canonical form of a buffer: equal buffers are equal data. -/
def Memory.wf (m : Memory) : Bool := Memory.cellsWf m.len 0 m.cells

/-- The four byte reads of FETCH4 at `a`, `a+1`, `a+2`, `a+3`, each one byte wide, no alignment, no wrap-around
(R31, R34, R70); none outside the contract `len >= a + 4` (R35). -/
def Memory.fetchField (m : Memory) (a : Nat) : Option Payload4 :=
  if a + 4 ≤ m.len then
    some { b0 := m.byteAt a, b1 := m.byteAt (a + 1), b2 := m.byteAt (a + 2), b3 := m.byteAt (a + 3) }
  else none

/-- FETCH4 drives `b0 .. b3` (R70). -/
def Wires.fetch4 (f : Payload4) (w : Wires) : Wires :=
  { w with b0 := f.b0, b1 := f.b1, b2 := f.b2, b3 := f.b3 }

/-- ASSEMBLE drives `bits` (R71). -/
def Wires.assemble (w : Wires) : Wires := { w with bits := assembleWord w.b0 w.b1 w.b2 w.b3 }

/-- XSIGN drives `sign` (R80). -/
def Wires.xsign (w : Wires) : Wires := { w with sign := signOf w.bits }

/-- XEXP drives `exp_field` (R81). -/
def Wires.xexp (w : Wires) : Wires := { w with expField := expFieldOf w.bits }

/-- UNBIAS drives `exp_signed` (R82). -/
def Wires.unbias (w : Wires) : Wires := { w with expSigned := unbiased w.expField }

/-- XMANT drives `mantissa` (R83). -/
def Wires.xmant (w : Wires) : Wires := { w with mantissa := mantissaOf w.bits }

/-- SIGNIF drives `significand` (R84). -/
def Wires.signif (w : Wires) : Wires := { w with significand := significandOf w.mantissa }

/-- SIGNMUL drives `sign_mul` (R90). -/
def Wires.signmul (w : Wires) : Wires := { w with signMul := signMulOf w.sign }

/-- SCALE drives `scale_k` and `V` (R91). -/
def Wires.scale (w : Wires) : Wires :=
  { w with scaleK := scaleExponent w.expSigned, v := scaledValue w.signMul w.significand w.expSigned }

/-- PACK64 drives `value64` (R95). -/
def Wires.pack64 (w : Wires) : Wires := { w with value64 := packed64 w.sign w.expField w.mantissa }

/-- The five steps of the decoder and its output stage, in the order of R102. -/
def Wires.decodeField (f : Payload4) (w : Wires) : Wires :=
  (Wires.fetch4 f w |> Wires.assemble |> Wires.xsign |> Wires.xexp |> Wires.unbias |> Wires.xmant |> Wires.signif
    |> Wires.signmul |> Wires.scale |> Wires.pack64)

/-- FDEC's wires change and nothing else does: what every stage and the decoder does to the state (R7, R24). -/
def State.drive (s : State) (w : Wires) : State := { s with wires := w }

/-- The wires of the decoder inside UADP change and nothing else does. -/
def State.driveAdapter (s : State) (w : Wires) : State := { s with adapterWires := w }

/-- FDEC's value outputs carry nothing meaningful: a fresh draw of the free wires. -/
def State.releaseWires (s : State) : State :=
  { s with wires := Config.freeWires s.freeCount, freeCount := s.freeCount + 1 }

/-- UADP's value outputs carry nothing meaningful: a fresh draw of the free wires. -/
def State.releaseAdapter (s : State) : State :=
  { s with adapterWires := Config.freeWires s.freeCount, freeCount := s.freeCount + 1 }

/-- What happens when the error occurs, "the counterpart of trap entry" (R125): the failure form of the Result is
produced and the invocation is over; nothing is saved, no mode or mask changes, control goes nowhere. The list holds
exactly one string (R122). The value outputs are not part of the result and may carry anything (R113, D18). The
counterpart of trap return is nothing at all: "There is no return operation and nothing to restore" (R126). -/
def State.reportError (s : State) (e : UplinkError) : State :=
  { s.releaseAdapter with result := some (.err [e.message]) }

/-- The success form of the Result, with the value passed through unchanged (R112). -/
def State.reportValue (s : State) : State := { s with result := some (.ok s.adapterWires.v) }

/-- FDEC's outputs become "the function of the present inputs that files 40 to 44 define" (R25, R141), all at once, as the
block is combinational (R148, D2): inside the contract what DECODE drives, outside it nothing fixed (R101). -/
def State.settle (s : State) : State :=
  match s.mem.fetchField s.offset with
  | some f => s.drive (Wires.decodeField f s.wires)
  | none => s.releaseWires

/-- What stands on FDEC's port `offset` when inputs are presented for an operation: the offset given, 0 when it is
omitted (R107); UADP has no offset input (R11), so presenting a payload to it leaves the port as the host put it
(R24; assumption log 10). -/
def offsetPort (op : Operation) (held : Nat) (given : Option Nat) : Nat :=
  match op with
  | .uplink => held
  | _ => given.getD 0

/-- Inputs go onto the ports whole (R37). FDEC's outputs follow them. "There is no previous result that would be held"
(R141): no Result stands, and UADP's value outputs mean nothing, until UPLINK produces one. -/
def State.putInputs (s : State) (op : Operation) (inputs : Inputs) : State :=
  State.settle
    { s.releaseAdapter with
      mem := Memory.ofBytes inputs.bytes
      offset := offsetPort op s.offset inputs.offset
      result := none }

/-- The host presents an invocation. New inputs go onto the ports. Without new inputs, those presented before are still
there and nothing changes, the offset included (R24, R135). DESIGN CHOICE (assumption logs 2 and 3) for the point R25
and R141 leave open, an invocation that keeps the inputs when none were ever presented (right after reset): the
operation runs, on free inputs drawn anew each time, so that its outputs are the function of inputs nobody knows. The
draw stays on the ports until other inputs replace it. DESIGN CHOICE (assumption log 5) for a second open point, FDEC on
kept inputs when UADP alone was ever given inputs: the payload replaces the drawn buffer and leaves FDEC's port, so the
offset is the drawn one, the last FDEC draw's, and where no such draw was made the 0 of reset. -/
def State.present (s : State) (inv : Invocation) : State :=
  match inv.inputs with
  | some inputs => State.putInputs { s with presented := true } inv.op inputs
  | none =>
    if s.presented = true then s
    else State.putInputs { s with freeCount := s.freeCount + 1 } inv.op (Config.freeInputs s.freeCount)

end Sys2Proof.Machine
end

