-- ==== Sys2Proof/Machine/ByteAssembler.lean ====
section
/-! DEFINITION. The byte assembler (spec/40_byte_assembler.md): FETCH4 and ASSEMBLE. -/

namespace Sys2Proof.Machine

/-- FETCH4 (R70): the four bytes of the buffer at `offset`; refused when `len < offset + 4` (R35). -/
def execFetch4 (s : State) : Host.Outcome State Fault Refusal :=
  match s.mem.fetchField s.offset with
  | some f => .next (s.drive (Wires.fetch4 f s.wires))
  | none => .refused .outOfContract

/-- ASSEMBLE (R71). -/
def execAssemble (s : State) : Host.Outcome State Fault Refusal :=
  .next (s.drive (Wires.assemble s.wires))

end Sys2Proof.Machine
end

