-- ==== Sys2Proof/Machine/FieldExtractor.lean ====
section
/-! DEFINITION. The bit-field extractor (spec/41_field_extractor.md): XSIGN, XEXP, UNBIAS, XMANT, SIGNIF. -/

namespace Sys2Proof.Machine

/-- XSIGN (R80). -/
def execXsign (s : State) : Host.Outcome State Fault Refusal :=
  .next (s.drive (Wires.xsign s.wires))

/-- XEXP (R81). -/
def execXexp (s : State) : Host.Outcome State Fault Refusal :=
  .next (s.drive (Wires.xexp s.wires))

/-- UNBIAS (R82). -/
def execUnbias (s : State) : Host.Outcome State Fault Refusal :=
  .next (s.drive (Wires.unbias s.wires))

/-- XMANT (R83). -/
def execXmant (s : State) : Host.Outcome State Fault Refusal :=
  .next (s.drive (Wires.xmant s.wires))

/-- SIGNIF (R84). -/
def execSignif (s : State) : Host.Outcome State Fault Refusal :=
  .next (s.drive (Wires.signif s.wires))

end Sys2Proof.Machine
end

