-- ==== Sys2Proof/Machine/FloatDecoder.lean ====
section
/-! DEFINITION. The Float Decoder as a whole (spec/43_float_decoder.md): DECODE. -/

namespace Sys2Proof.Machine

/-- DECODE (R102): the field at `offset`, through all stages; refused when `len < offset + 4` (R101). -/
def execDecode (s : State) : Host.Outcome State Fault Refusal :=
  match s.mem.fetchField s.offset with
  | some f => .next (s.drive (Wires.decodeField f s.wires))
  | none => .refused .outOfContract

end Sys2Proof.Machine
end

