-- ==== Sys2Proof/Machine/Scaler.lean ====
section
/-! DEFINITION. The floating-point scaler (spec/42_scaler.md): SIGNMUL, SCALE, PACK64. -/

namespace Sys2Proof.Machine

/-- SIGNMUL (R90). -/
def execSignmul (s : State) : Host.Outcome State Fault Refusal :=
  .next (s.drive (Wires.signmul s.wires))

/-- SCALE (R91). -/
def execScale (s : State) : Host.Outcome State Fault Refusal :=
  .next (s.drive (Wires.scale s.wires))

/-- PACK64 (R95). -/
def execPack64 (s : State) : Host.Outcome State Fault Refusal :=
  .next (s.drive (Wires.pack64 s.wires))

end Sys2Proof.Machine
end

