-- ==== Sys2Proof/Machine/UplinkAdapter.lean ====
section
/-! DEFINITION. The Uplink Adapter (spec/44_uplink_adapter.md): the two rows of UPLINK (R110). -/

namespace Sys2Proof.Machine

/-- The minimum payload length (R56, R111). -/
def minPayload : Nat := 4

/-- The offset of the decoder inside UADP, tied to the constant 0 (R107, R112). The port `offset` is FDEC's. -/
def adapterOffset : Nat := 0

/-- UPLINK.err (R111): a payload of fewer than 4 bytes gives the failure form and no decoding. The row's condition is
`len < 4`; where it does not hold the row is not the operation performed. -/
def execUplinkErr (s : State) : Host.Outcome State Fault Refusal :=
  if s.mem.len < minPayload then .next (s.reportError .insufficientPayloadLength)
  else .refused .rowNotSelected

/-- UPLINK.ok (R112): DECODE, as a sub-block, with the constant offset 0, and the success form with its value. The row's condition is
`len >= 4`; where it holds DECODE's precondition holds too (R115). -/
def execUplinkOk (s : State) : Host.Outcome State Fault Refusal :=
  if s.mem.len < minPayload then .refused .rowNotSelected
  else
    match s.mem.fetchField adapterOffset with
    | some f => .next (s.driveAdapter (Wires.decodeField f s.adapterWires)).reportValue
    | none => .refused .outOfContract

end Sys2Proof.Machine
end

