-- ==== Sys2Proof/Machine/Dispatch.lean ====
section
/-! DEFINITION. Which meaning each row of the operation table has. -/

namespace Sys2Proof.Machine

/-- The meaning of every row; the inputs are the ports and the wires of the state (R58). -/
def exec (i : Instr) (s : State) : Host.Outcome State Fault Refusal :=
  match i with
  | .fetch4 => Sys2Proof.Machine.execFetch4 s
  | .assemble => Sys2Proof.Machine.execAssemble s
  | .xsign => Sys2Proof.Machine.execXsign s
  | .xexp => Sys2Proof.Machine.execXexp s
  | .unbias => Sys2Proof.Machine.execUnbias s
  | .xmant => Sys2Proof.Machine.execXmant s
  | .signif => Sys2Proof.Machine.execSignif s
  | .signmul => Sys2Proof.Machine.execSignmul s
  | .scale => Sys2Proof.Machine.execScale s
  | .pack64 => Sys2Proof.Machine.execPack64 s
  | .decode => Sys2Proof.Machine.execDecode s
  | .uplinkErr => Sys2Proof.Machine.execUplinkErr s
  | .uplinkOk => Sys2Proof.Machine.execUplinkOk s

end Sys2Proof.Machine
end

