-- ==== Sys2Proof/Machine/Step.lean ====
section
/-! DEFINITION. One step is one invocation (R150): the host presents the next invocation of its queue, the row of the
operation table is selected by the operation and the length on the port, and the row is performed. There is no program
counter and no instruction fetch (R19, R43). -/

namespace Sys2Proof.Machine

/-- The step. -/
def step (s : State) : Host.Outcome State Fault Refusal :=
  match s.pending with
  | [] => .refused .noInvocation
  | inv :: rest =>
    let s' := State.present { s with pending := rest } inv
    exec (decodeOp inv.op s'.mem.len) s'

/-- The payload that the bits are (see `decodeTableWord`) becomes the host's next invocation. -/
def State.withFetchWord (s : State) (nbits w : Nat) : State :=
  { s with
    pending := { op := .uplink, inputs := some { bytes := payloadOfWord nbits w, offset := none } } :: s.pending }

end Sys2Proof.Machine
end

