-- ==== Sys2Proof/Machine/Numbers.lean ====
section
/-! DEFINITION. The numbers that the model's data denote, in which claims about values are made (R6): the exact value,
the binary64 reading of the output port, the IEEE-754 reading of a word, and the classes of words. -/

namespace Sys2Proof

/-- The integer a sign multiplier is (R16, R90). -/
def SignMul.toInt : SignMul → Int
  | .plus => 1
  | .minus => -1

/-- The number an exact value denotes: `mul * n * 2^k` (R6, R91). Equality of decoded values is equality of these. -/
def Value.toRat (v : Value) : Rat := (v.mul.toInt : Rat) * (v.n : Rat) * (2 : Rat) ^ v.k

namespace Machine

/-- The classes R55 names. No output of the hardware reports them. -/
inductive WordClass where
  | normal
  | expZero
  | expOnes
deriving DecidableEq, Repr

/-- The class of a word (R55). -/
def classOf (w : Word) : WordClass :=
  if expFieldOf w = 0#8 then .expZero else if expFieldOf w = 255#8 then .expOnes else .normal

/-- The binary64 value of a 64-bit pattern whose exponent field is 1..2046:
`(-1)^s * (1 + f / 2^52) * 2^(e - 1023)` (R95, spec/93 G1); other patterns have no value here. -/
def binary64Value (p : BitVec 64) : Option Rat :=
  let e := (p.extractLsb' 52 11).toNat
  if 1 ≤ e ∧ e ≤ 2046 then
    some ((-1 : Rat) ^ (p.extractLsb' 63 1).toNat * (1 + ((p.extractLsb' 0 52).toNat : Rat) / 2 ^ 52)
      * (2 : Rat) ^ ((e : Int) - 1023))
  else none

/-- The number IEEE-754 binary32 assigns to a word: for a NORMAL word `(-1)^sign * 1.mantissa * 2^(exp_field - 127)`
(R98); for exponent field 0 `(-1)^sign * mantissa * 2^-149` (R97's comparison, spec/93 G2); for exponent field 255,
infinities and NaNs, no number. The hardware does not compute this; claims compare with it. -/
def ieee32Value (w : Word) : Option Rat :=
  match classOf w with
  | .normal =>
    some ((-1 : Rat) ^ (signOf w).toNat * (1 + ((mantissaOf w).toNat : Rat) / 2 ^ 23)
      * (2 : Rat) ^ (((expFieldOf w).toNat : Int) - 127))
  | .expZero => some ((-1 : Rat) ^ (signOf w).toNat * ((mantissaOf w).toNat : Rat) * (2 : Rat) ^ (-149 : Int))
  | .expOnes => none

end Machine

end Sys2Proof
end

