-- ==== Sys2Proof/Machine/Ports.lean ====
section
/-! DEFINITION. The output ports as the host sees them (R17, decisions D3, D5, D13): views of the wires and the Result. -/

namespace Sys2Proof.Machine

/-- An integer on a 9-bit two's complement port (R14, R82, R92, D5). -/
def port9 (n : Int) : BitVec 9 := BitVec.ofInt 9 n

/-- The outputs of an FDEC invocation (R17): the exact `V`, its port `value64`, and the observable intermediate
outputs at their port widths. FDEC has no status output of any kind. -/
structure DecoderOutputs where
  v           : Value
  value64     : BitVec 64
  sign        : BitVec 1
  expField    : BitVec 8
  expSigned   : BitVec 9
  mantissa    : BitVec 23
  significand : BitVec 24
  scaleK      : BitVec 9
deriving DecidableEq, Repr

/-- What FDEC's ports carry. -/
def decoderOutputs (w : Wires) : DecoderOutputs where
  v := w.v
  value64 := w.value64
  sign := w.sign
  expField := w.expField
  expSigned := port9 w.expSigned
  mantissa := w.mantissa
  significand := w.significand
  scaleK := port9 w.scaleK

/-- The outputs of a UADP invocation (R17): the two status bits, and `value64`, which is meaningful only when `ok` is 1. -/
structure AdapterOutputs where
  ok      : BitVec 1
  err     : BitVec 1
  value64 : BitVec 64
deriving DecidableEq, Repr

/-- What UADP's ports carry while a Result stands; nothing is to be read as a result otherwise (R141). -/
def adapterOutputs (s : State) : Option AdapterOutputs :=
  s.result.map fun r => { ok := r.okPort, err := r.errPort, value64 := s.adapterWires.value64 }

end Sys2Proof.Machine
end

