-- ==== Sys2Proof/Machine/Program.lean ====
section
/-! DEFINITION. A program is "a finite sequence of invocations chosen by the host" and its end state "consists of the
results of those invocations and nothing else" (R150). The host takes each result from the state its step leaves. -/

namespace Sys2Proof.Machine

/-- What the host takes from one invocation: FDEC's outputs, or UADP's Result. -/
inductive Response where
  | decoded (outputs : DecoderOutputs)
  | uplink (result : Result)
deriving DecidableEq, Repr

/-- What a host call finds in the state after its step. -/
def HostCall.response (c : HostCall) (t : State) : Option Response :=
  match c with
  | .decode _ _ => some (.decoded (decoderOutputs t.wires))
  | .handleUplink _ => t.result.map .uplink

/-- The results of a sequence of host calls made to one instance in state `s`. A call outside the contract has no
result (`none`), and the host may go on with the next call (spec/95 section 3, program 2). -/
def results : List HostCall → State → List (Option Response)
  | [], _ => []
  | c :: cs, s =>
    match step { s with pending := [HostCall.invocation c] } with
    | .next t => HostCall.response c t :: results cs t
    | .fault _ => none :: results cs s
    | .refused _ => none :: results cs s

end Sys2Proof.Machine
end

