-- ==== Sys2Proof/Safety.lean ====
section
/-! DEFINITION. The terms claims use: the word of a field, a chain of operations, what FDEC's ports say of a
word, and the invariant of the block. -/

namespace Sys2Proof.Machine

/-- The 32-bit word "whose bits 7..0, 15..8, 23..16, 31..24 are the bytes at `offset`, `offset+1`, `offset+2`,
`offset+3`" (R103), by concatenation. -/
def Memory.fieldWord (m : Memory) (a : Nat) : Word :=
  m.byteAt (a + 3) ++ m.byteAt (a + 2) ++ m.byteAt (a + 1) ++ m.byteAt a

/-- Operations performed one after the other, stopping at the first that has no next state. -/
def execAll : List Instr → State → Host.Outcome State Fault Refusal
  | [], s => .next s
  | i :: is, s =>
    match exec i s with
    | .next t => execAll is t
    | .fault f => .fault f
    | .refused r => .refused r

/-- What FDEC's ports (R17) carry for a word, port by port: the fields of R13, `exp_signed` and `scale_k` as the 9-bit
ports spell them (R14, R92), the significand (R15), the value by the closed form (R103), and the layout of R57. -/
structure CarriesWord (o : DecoderOutputs) (w : Word) : Prop where
  sign : o.sign = w.extractLsb' 31 1
  expField : o.expField = w.extractLsb' 23 8
  mantissa : o.mantissa = w.extractLsb' 0 23
  expSigned : o.expSigned.toInt = ((w.extractLsb' 23 8).toNat : Int) - 127
  significand : o.significand.toNat = 2 ^ 23 + (w.extractLsb' 0 23).toNat
  scaleK : o.scaleK.toInt = ((w.extractLsb' 23 8).toNat : Int) - 150
  v : o.v.toRat =
    (-1 : Rat) ^ (w.extractLsb' 31 1).toNat * (2 ^ 23 + ((w.extractLsb' 0 23).toNat : Rat))
      * (2 : Rat) ^ (((w.extractLsb' 23 8).toNat : Int) - 150)
  value64 : o.value64.toNat =
    (w.extractLsb' 31 1).toNat * 2 ^ 63 + ((w.extractLsb' 23 8).toNat + 896) * 2 ^ 52
      + (w.extractLsb' 0 23).toNat * 2 ^ 29

/-- FDEC's outputs are the function of the inputs on the ports (R25, R141): inside the contract, every wire is what DECODE
drives. -/
def DecoderFollowsInputs (s : State) : Prop :=
  ∀ f, s.mem.fetchField s.offset = some f → s.wires = Wires.decodeField f s.wires

/-- The Result ports agree with the buffer that is on the ports (R17, R111, R112, R141): in the success form the payload
has at least 4 bytes, every wire and value output of UADP is what DECODE of the first four bytes gives, and the Result
carries that value; in the failure form the payload is too short and the message is the one string. -/
def ResultFollowsInputs (s : State) : Prop :=
  match s.result with
  | none => True
  | some (.ok v) =>
    ∃ f, s.mem.fetchField 0 = some f ∧ s.adapterWires = Wires.decodeField f s.adapterWires ∧ v = s.adapterWires.v
  | some (.err msgs) => s.mem.len < 4 ∧ msgs = ["Not enough bytes for float"]

/-- The invariant every step keeps: the buffer is in canonical form, and the outputs of both blocks follow the inputs. -/
structure Inv (s : State) : Prop where
  memory : s.mem.wf = true
  decoder : DecoderFollowsInputs s
  result : ResultFollowsInputs s

end Sys2Proof.Machine
end

