-- ==== Sys2Proof/Certificates/Slice0/Obligations.lean ====
section
/-! DEFINITION. The statements for the provers. A bare `w : Word` is the word `bits`; numbers are rationals. "Frame" is
always said as an equation: the next state is the old one but for the fields named. -/

open Sys2Proof Sys2Proof.Machine

/-! ### Reset, presenting inputs, stepping -/

/-- The block after power-up: no buffer, so no index exists, no Result, and nothing the host wants. All of it is the
MODEL'S CHOICE (assumption log 5, DESIGN CHOICE): R25, R140 and R141 state no reset value of anything. That a step is
then refused is the model's choice too (assumption log 9, DESIGN CHOICE). Of the wires nothing is stated. -/
def Obligations.ResetHoldsNothing : Prop :=
  State.reset.mem.toBytes = [] ∧ (∀ a, State.reset.mem.read a = none) ∧ State.reset.result = none ∧
    State.reset.pending = [] ∧ step State.reset = .refused .noInvocation

/-- The invariant holds after reset. The MODEL'S CHOICE: the reset state is assumption log 5 and the canonical form of the
buffer assumption log 6 (both DESIGN CHOICE). -/
def Obligations.ResetMeetsInvariant : Prop := Inv State.reset

/-- The invariant is kept by every step, from every state that meets it: the outputs of FDEC, and a Result of UADP with
the decoded value beside it, are those that the inputs on the ports call for (R17, R111, R112, R141). The MODEL'S CHOICE
in it: the canonical form of the buffer (assumption log 6), and that both blocks share the buffer port and a Result
stays while the same inputs stay (assumption log 10), both DESIGN CHOICE. -/
def Obligations.EveryStepKeepsInvariant : Prop :=
  ∀ s t : State, Inv s → step s = .next t → Inv t

/-- A step is one invocation (R150): the host presents the next one, the row is selected by the operation and by the
length on the port, and the row's meaning is the step. The presenting is the model's (assumption logs 1 and 2). -/
def Obligations.StepPerformsSelectedRow : Prop :=
  ∀ (s : State) (inv : Invocation) (rest : List Invocation), s.pending = inv :: rest →
    step s =
      exec (decodeOp inv.op (State.present { s with pending := rest } inv).mem.len)
        (State.present { s with pending := rest } inv)

/-- A bare payload word placed as the next invocation runs as the row the decoder reads from it (assumption log 1). -/
def Obligations.PlacedWordRunsItsRow : Prop :=
  ∀ (s : State) (nbits w : Nat) (i : Instr), decodeTableWord nbits w = some i →
    step (s.withFetchWord nbits w) =
      exec i (s.present ⟨.uplink, some ⟨payloadOfWord nbits w, none⟩⟩)

/-- Presenting puts the whole byte sequence onto the port, byte for byte; an omitted offset of FDEC is 0 and has no other
effect (R107); UADP has no offset input (R11), so the port keeps what the host put there (R24). Kept inputs stay as they
are, and nothing changes (R24, R135). The MODEL'S CHOICE in it (all DESIGN CHOICE): the canonical form (assumption log
6); kept inputs, the Result that new inputs clear, and free inputs where none were ever presented (logs 2 and 3); one
buffer port and one offset port (log 10). -/
def Obligations.PresentingDrivesPorts : Prop :=
  (∀ (s : State) (op : Operation) (bytes : List Byte) (off : Option Nat),
    (s.present ⟨op, some ⟨bytes, off⟩⟩).mem.len = bytes.length ∧
    (∀ k, (s.present ⟨op, some ⟨bytes, off⟩⟩).mem.read k = bytes[k]?) ∧
    (s.present ⟨op, some ⟨bytes, off⟩⟩).mem.toBytes = bytes ∧
    (s.present ⟨op, some ⟨bytes, off⟩⟩).mem.wf = true ∧
    (s.present ⟨op, some ⟨bytes, off⟩⟩).offset = (if op = .uplink then s.offset else off.getD 0) ∧
    (s.present ⟨op, some ⟨bytes, off⟩⟩).result = none ∧
    (s.present ⟨op, some ⟨bytes, off⟩⟩).presented = true ∧
    (s.present ⟨op, some ⟨bytes, off⟩⟩).pending = s.pending ∧
    s.present ⟨op, some ⟨bytes, none⟩⟩ = s.present ⟨op, some ⟨bytes, some 0⟩⟩) ∧
  (∀ (s : State) (op : Operation), s.presented = true → s.present ⟨op, none⟩ = s) ∧
  (∀ (s : State) (op : Operation), s.presented = false →
    ∃ (bytes : List Byte) (off : Option Nat) (n : Nat),
      s.present ⟨op, none⟩ =
        { State.present { s with freeCount := n } ⟨op, some ⟨bytes, off⟩⟩ with presented := false })

/-- Nothing an operation does is seen by a later one (R7, R24, R135): a step on kept inputs runs on the state as the
host's inputs and the step before left it, keeps the buffer and the offset, and where it is UPLINK it completes and
leaves FDEC's outputs as they were. Kept inputs are the model's (assumption log 2). -/
def Obligations.KeptInputsStay : Prop :=
  ∀ (s : State) (op : Operation) (rest : List Invocation), s.presented = true → s.pending = ⟨op, none⟩ :: rest →
    step s = exec (decodeOp op s.mem.len) { s with pending := rest } ∧
      (∀ t, step s = .next t → t.mem = s.mem ∧ t.offset = s.offset ∧ t.presented = true ∧ t.pending = rest) ∧
      (op = .uplink → ∃ t r, step s = .next t ∧ t.result = some r ∧
        t = { s with pending := rest, adapterWires := t.adapterWires, result := some r, freeCount := t.freeCount }) ∧
      (op ≠ .uplink → ∀ t, step s = .next t → t = { s with pending := rest, wires := t.wires })

/-- The outputs are the function of the present inputs (R25, R141, R148): whichever operation of FDEC is used, with new
inputs inside the contract the step completes and every port of FDEC carries what those inputs call for. That a stage
can be used by itself is the model's (assumption log 2). -/
def Obligations.FdecOutputsFollowInputs : Prop :=
  ∀ (s : State) (op : Operation) (bytes : List Byte) (off : Option Nat) (rest : List Invocation) (w : Word),
    op ≠ .uplink → s.pending = ⟨op, some ⟨bytes, off⟩⟩ :: rest →
    (bytes.drop (off.getD 0)).take 4 = encodePayload4 w →
      ∃ t, step s = .next t ∧ t.wires.bits = w ∧ CarriesWord (decoderOutputs t.wires) w ∧
        t.mem.toBytes = bytes ∧ t.offset = off.getD 0 ∧ t.result = none ∧ t.pending = rest

/-- A step that answers a next state uses up one invocation and leaves the rest of the host's queue as it was; it never
faults (R105, R123, R125: nothing in the block traps). Without an invocation it is refused (assumption log 9), and only
then for that reason; the refusals of an unselected row and of a missing meaning are never a step's answer. -/
def Obligations.StepConsumesOneInvocation : Prop :=
  ∀ s : State, (∀ t, step s = .next t → ∃ inv, s.pending = inv :: t.pending) ∧ (∀ f, step s ≠ .fault f) ∧
    (s.pending = [] ↔ step s = .refused .noInvocation) ∧
    (∀ r, step s = .refused r → r = .noInvocation ∨ r = .outOfContract)

/-- No hang (R149): an invocation completes unless it is FETCH4 or DECODE outside the precondition; UPLINK completes for
every input. The MODEL'S CHOICE in it: that those two are refused there (R35; assumption log 7, DEDUCED), and that the
ten stages are invocations of their own (assumption log 2, DESIGN CHOICE). -/
def Obligations.EveryInvocationCompletes : Prop :=
  ∀ (s : State) (inv : Invocation) (rest : List Invocation), s.pending = inv :: rest →
    ∀ p : State, p = State.present { s with pending := rest } inv →
      (¬ ((inv.op = .fetch4 ∨ inv.op = .decode) ∧ p.mem.len < p.offset + 4) → ∃ t, step s = .next t) ∧
      ((inv.op = .fetch4 ∨ inv.op = .decode) ∧ p.mem.len < p.offset + 4 → step s = .refused .outOfContract)

/-- No operation writes the buffer, changes the inputs (R24) or touches the host's queue: every byte reads as before. -/
def Obligations.OperationsKeepInputs : Prop :=
  ∀ (i : Instr) (s t : State), exec i s = .next t →
    (∀ a, t.mem.read a = s.mem.read a) ∧ t.mem.len = s.mem.len ∧ t.mem.toBytes = s.mem.toBytes ∧
      t.offset = s.offset ∧ t.pending = s.pending

/-- The Result is written by UPLINK alone (R20). -/
def Obligations.OnlyUplinkWritesResult : Prop :=
  ∀ (i : Instr) (s t : State), i ≠ .uplinkErr → i ≠ .uplinkOk → exec i s = .next t →
    t.result = s.result ∧ t = { s with wires := t.wires }

/-- The canonical form of a buffer is canonical: two buffers of one length whose bytes agree are equal data. The form
is the model's choice (assumption log 6). -/
def Obligations.CanonicalBuffersAgree : Prop :=
  ∀ m m' : Memory, m.wf = true → m'.wf = true → m.len = m'.len → (∀ a, m.read a = m'.read a) → m = m'

/-! ### Encodings -/

/-- Every row, encoded for inputs it applies to, is selected again, with the bytes and the offset intact, in the
invocation and on the ports; the rows of UPLINK have no offset input (R11), and their presenting leaves FDEC's port as
it is. The choice of operation as data is the model's (assumption log 1), and so is the one offset port (log 10). -/
def Obligations.EncodedRowIsSelected : Prop :=
  ∀ (i : Instr) (bytes : List Byte) (off : Option Nat) (s : State),
    i.wellFormed bytes.length (off.getD 0) = true →
      decodeOp (encode i bytes off).op (s.present (encode i bytes off)).mem.len = i ∧
      (s.present (encode i bytes off)).mem.toBytes = bytes ∧
      (s.present (encode i bytes off)).offset = (if i.operation = .uplink then s.offset else off.getD 0) ∧
      (encode i bytes off).inputs = some ⟨bytes, off⟩

/-- Words written out from spec/30 and spec/95: the formats B32 and PAYLOAD4. The rest is the MODEL'S CHOICE (assumption
log 1, DESIGN CHOICE: the spec has no word that selects an operation, R58, N4): that the bare payloads of S4 and S1 are
read as rows of UPLINK, and that a choice of block gives its row. -/
def Obligations.SpecWordsDecode : Prop :=
  encodeB32 0b1#1 0b10000001#8 0b01000000000000000000000#23 = 0xC0A00000#32 ∧
    encodePayload4 0xC0A00000#32 = [0x00#8, 0x00#8, 0xA0#8, 0xC0#8] ∧
    decodeTableWord 16 0x803F = some .uplinkErr ∧ payloadOfWord 16 0x803F = [0x3F#8, 0x80#8] ∧
    decodeTableWord 32 0x3F800000 = some .uplinkOk ∧
    payloadOfWord 32 0x3F800000 = [0x00#8, 0x00#8, 0x80#8, 0x3F#8] ∧
    decodeOp .decode 7 = .decode ∧ decodeOp .fetch4 7 = .fetch4 ∧ decodeOp .xsign 7 = .xsign ∧
    decodeOp .scale 7 = .scale

/-- Data decoding and encoding agree (R50, R51): the field whose bytes encode a sign, an exponent field and a mantissa,
each at every value, standing anywhere in any buffer, decodes to that word and those three fields. -/
def Obligations.EncodedFieldDecodes : Prop :=
  ∀ (sg : BitVec 1) (e : BitVec 8) (m : BitVec 23) (before after : List Byte) (s : State),
    s.mem = Memory.ofBytes (before ++ encodePayload4 (encodeB32 sg e m) ++ after) → s.offset = before.length →
      ∃ t, exec .decode s = .next t ∧ t.wires.bits = encodeB32 sg e m ∧
        t.wires.sign = sg ∧ t.wires.expField = e ∧ t.wires.mantissa = m ∧
        t.wires.bits.toNat = sg.toNat * 2 ^ 31 + e.toNat * 2 ^ 23 + m.toNat

/-- The byte order (R32): where each byte of the field lies in the word, and where the sign, the exponent field and the
mantissa lie in the bytes. -/
def Obligations.FieldIsLittleEndian : Prop :=
  ∀ s : State, s.offset + 4 ≤ s.mem.len →
    ∃ t, exec .decode s = .next t ∧
      t.wires.bits.extractLsb' 0 8 = s.mem.byteAt s.offset ∧
      t.wires.bits.extractLsb' 8 8 = s.mem.byteAt (s.offset + 1) ∧
      t.wires.bits.extractLsb' 16 8 = s.mem.byteAt (s.offset + 2) ∧
      t.wires.bits.extractLsb' 24 8 = s.mem.byteAt (s.offset + 3) ∧
      t.wires.sign = (s.mem.byteAt (s.offset + 3)).extractLsb' 7 1 ∧
      t.wires.expField =
        (s.mem.byteAt (s.offset + 3)).extractLsb' 0 7 ++ (s.mem.byteAt (s.offset + 2)).extractLsb' 7 1 ∧
      t.wires.mantissa =
        (s.mem.byteAt (s.offset + 2)).extractLsb' 0 7 ++ s.mem.byteAt (s.offset + 1) ++ s.mem.byteAt s.offset

/-! ### The byte assembler -/

/-- FETCH4 (R70): the four consecutive bytes at `offset`, at any offset inside the contract; nothing else changes. -/
def Obligations.Fetch4ReadsFourBytes : Prop :=
  ∀ s : State, s.offset + 4 ≤ s.mem.len →
    ∃ t, exec .fetch4 s = .next t ∧
      s.mem.memRead s.offset 4 = some [t.wires.b0, t.wires.b1, t.wires.b2, t.wires.b3] ∧
      s.mem.read s.offset = some t.wires.b0 ∧ s.mem.read (s.offset + 1) = some t.wires.b1 ∧
      s.mem.read (s.offset + 2) = some t.wires.b2 ∧ s.mem.read (s.offset + 3) = some t.wires.b3 ∧
      t = { s with wires :=
              { s.wires with b0 := t.wires.b0, b1 := t.wires.b1, b2 := t.wires.b2, b3 := t.wires.b3 } }

/-- The precondition (R35, R101): DECODE has a next state exactly when `len >= offset + 4`, and outside it neither a result
nor an error; FETCH4 likewise. That the model answers with a refusal there is assumption log 7 (DEDUCED from R35, D8 and
U1). -/
def Obligations.OutOfContractIsRefused : Prop :=
  ∀ s : State,
    ((∃ t, exec .decode s = .next t) ↔ s.offset + 4 ≤ s.mem.len) ∧
    ((∃ t, exec .fetch4 s = .next t) ↔ s.offset + 4 ≤ s.mem.len) ∧
    (s.mem.len < s.offset + 4 →
      exec .decode s = .refused .outOfContract ∧ exec .fetch4 s = .refused .outOfContract)

/-- ASSEMBLE (R71): the OR of the shifted bytes, which is their concatenation and one unsigned number, and a bijection
between the four-byte lists and the words; only `bits` changes. -/
def Obligations.AssembleBuildsWord : Prop :=
  (∀ s : State, ∃ t, exec .assemble s = .next t ∧
    t.wires.bits =
      s.wires.b0.setWidth 32 ||| (s.wires.b1.setWidth 32 <<< 8) ||| (s.wires.b2.setWidth 32 <<< 16)
        ||| (s.wires.b3.setWidth 32 <<< 24) ∧
    t.wires.bits = s.wires.b3 ++ s.wires.b2 ++ s.wires.b1 ++ s.wires.b0 ∧
    t.wires.bits.toNat =
      s.wires.b0.toNat + 256 * s.wires.b1.toNat + 65536 * s.wires.b2.toNat + 16777216 * s.wires.b3.toNat ∧
    (s.wires.b3.getLsbD 7 = true ↔ 2 ^ 31 ≤ t.wires.bits.toNat) ∧
    t = { s with wires := { s.wires with bits := t.wires.bits } }) ∧
  Function.Bijective (fun f : Payload4 => assembleWord f.b0 f.b1 f.b2 f.b3)

/-! ### The bit-field extractor -/

/-- XSIGN (R80): bit 31 of the unsigned word, which is bit 7 of the byte `b3`; only `sign` changes. -/
def Obligations.XsignTakesBit31 : Prop :=
  ∀ s : State, ∃ t, exec .xsign s = .next t ∧
    t.wires.sign.toNat = s.wires.bits.toNat / 2 ^ 31 ∧
    (t.wires.sign = 1#1 ↔ 0x80000000 ≤ s.wires.bits.toNat) ∧
    (∀ b0 b1 b2 b3 : Byte, s.wires.bits = b3 ++ b2 ++ b1 ++ b0 → (t.wires.sign = 1#1 ↔ b3.getLsbD 7 = true)) ∧
    t = { s with wires := { s.wires with sign := t.wires.sign } }

/-- XEXP (R81): bits 30..23 as an unsigned number without the sign bit above them; its low bit comes from bit 7 of
`b2`, the other seven from `b3`; only `exp_field` changes. -/
def Obligations.XexpTakesBits30To23 : Prop :=
  ∀ s : State, ∃ t, exec .xexp s = .next t ∧
    t.wires.expField.toNat = s.wires.bits.toNat / 2 ^ 23 % 256 ∧
    (∀ b0 b1 b2 b3 : Byte, s.wires.bits = b3 ++ b2 ++ b1 ++ b0 →
      t.wires.expField.toNat = 2 * (b3.toNat % 128) + b2.toNat / 128) ∧
    t = { s with wires := { s.wires with expField := t.wires.expField } }

/-- UNBIAS (R82): the exact difference, its range, and the 9-bit port, which spells the same integer; only
`exp_signed` changes. -/
def Obligations.UnbiasSubtracts127 : Prop :=
  ∀ s : State, ∃ t, exec .unbias s = .next t ∧
    t.wires.expSigned = (s.wires.expField.toNat : Int) - 127 ∧
    -127 ≤ t.wires.expSigned ∧ t.wires.expSigned ≤ 128 ∧
    port9 t.wires.expSigned = s.wires.expField.setWidth 9 - 127#9 ∧
    (port9 t.wires.expSigned).toInt = t.wires.expSigned ∧
    t = { s with wires := { s.wires with expSigned := t.wires.expSigned } }

/-- XMANT (R83): bits 22..0, with bit 23 masked away; only `mantissa` changes. -/
def Obligations.XmantTakesBits22To0 : Prop :=
  ∀ s : State, ∃ t, exec .xmant s = .next t ∧
    t.wires.mantissa.toNat = s.wires.bits.toNat % 2 ^ 23 ∧
    t.wires.mantissa.setWidth 32 = s.wires.bits &&& 0x7FFFFF#32 ∧
    t = { s with wires := { s.wires with mantissa := t.wires.mantissa } }

/-- SIGNIF (R84): the implicit leading one, set for every word whatever the exponent field is; only `significand`
changes. -/
def Obligations.SignifSetsBit23 : Prop :=
  ∀ s : State, ∃ t, exec .signif s = .next t ∧
    t.wires.significand = 1#1 ++ s.wires.mantissa ∧
    t.wires.significand.toNat = 8388608 + s.wires.mantissa.toNat ∧
    8388608 ≤ t.wires.significand.toNat ∧ t.wires.significand.toNat ≤ 16777215 ∧
    t.wires.significand.getLsbD 23 = true ∧
    t = { s with wires := { s.wires with significand := t.wires.significand } }

/-- The three fields partition the word (R85): in whichever order they are extracted the outcome is one and the same
state, from whose fields the word is read back; extraction is a bijection of words and field triples. -/
def Obligations.FieldsPartitionWord : Prop :=
  (∀ s : State, ∃ t,
    (∀ is ∈ [[Instr.xsign, .xexp, .xmant], [.xsign, .xmant, .xexp], [.xexp, .xsign, .xmant],
             [.xexp, .xmant, .xsign], [.xmant, .xsign, .xexp], [.xmant, .xexp, .xsign]],
      execAll is s = .next t) ∧
    s.wires.bits.toNat =
      t.wires.sign.toNat * 2 ^ 31 + t.wires.expField.toNat * 2 ^ 23 + t.wires.mantissa.toNat ∧
    t = { s with wires :=
            { s.wires with sign := signOf s.wires.bits, expField := expFieldOf s.wires.bits,
                           mantissa := mantissaOf s.wires.bits } }) ∧
  Function.Bijective (fun w : Word => (signOf w, expFieldOf w, mantissaOf w))

/-! ### The scaler -/

/-- SIGNMUL (R90): -1 for `sign` = 1, +1 for `sign` = 0; only `sign_mul` changes. -/
def Obligations.SignmulMapsSign : Prop :=
  ∀ s : State, ∃ t, exec .signmul s = .next t ∧
    t.wires.signMul.toInt = (if s.wires.sign = 1#1 then -1 else 1) ∧
    t = { s with wires := { s.wires with signMul := t.wires.signMul } }

/-- SCALE (R91, R92): `scale_k` and the exact value, in the integer form and, for a significand with the implicit bit,
in the fraction form; the range of `scale_k` and its 9-bit port; only `scale_k` and `V` change. -/
def Obligations.ScaleMultiplies : Prop :=
  ∀ s : State, ∃ t, exec .scale s = .next t ∧
    t.wires.scaleK = s.wires.expSigned - 23 ∧
    t.wires.v.toRat =
      (s.wires.signMul.toInt : Rat) * (s.wires.significand.toNat : Rat) * (2 : Rat) ^ t.wires.scaleK ∧
    (∀ m : BitVec 23, s.wires.significand.toNat = 2 ^ 23 + m.toNat →
      t.wires.v.toRat =
        (s.wires.signMul.toInt : Rat) * (1 + (m.toNat : Rat) / 2 ^ 23) * (2 : Rat) ^ s.wires.expSigned) ∧
    (∀ e : BitVec 8, s.wires.expSigned = (e.toNat : Int) - 127 →
      t.wires.scaleK = (e.toNat : Int) - 150 ∧ -150 ≤ t.wires.scaleK ∧ t.wires.scaleK ≤ 105 ∧
        (port9 t.wires.scaleK).toInt = t.wires.scaleK) ∧
    t = { s with wires := { s.wires with scaleK := t.wires.scaleK, v := t.wires.v } }

/-- PACK64 (R95, R57): the layout of `value64` as a number and field by field, and the number it denotes when read as
binary64; only `value64` changes. The binary64 reading is general knowledge (G1; assumption log 12, PRESUMED). -/
def Obligations.Pack64Layout : Prop :=
  ∀ s : State, ∃ t, exec .pack64 s = .next t ∧
    t.wires.value64.toNat =
      s.wires.sign.toNat * 2 ^ 63 + (s.wires.expField.toNat + 896) * 2 ^ 52 + s.wires.mantissa.toNat * 2 ^ 29 ∧
    t.wires.value64.extractLsb' 63 1 = s.wires.sign ∧
    (t.wires.value64.extractLsb' 52 11).toNat = s.wires.expField.toNat + 896 ∧
    t.wires.value64.extractLsb' 29 23 = s.wires.mantissa ∧
    t.wires.value64.extractLsb' 0 29 = 0#29 ∧
    binary64Value t.wires.value64 =
      some ((-1 : Rat) ^ s.wires.sign.toNat * (1 + (s.wires.mantissa.toNat : Rat) / 2 ^ 23)
        * (2 : Rat) ^ ((s.wires.expField.toNat : Int) - 127)) ∧
    t = { s with wires := { s.wires with value64 := t.wires.value64 } }

/-! ### The Float Decoder -/

/-- DECODE is its stages one after the other and nothing else (R102), on every state: it has the same next state, and
the same refusal outside the contract. -/
def Obligations.DecodeIsItsStages : Prop :=
  ∀ s : State, exec .decode s =
    execAll [.fetch4, .assemble, .xsign, .xexp, .unbias, .xmant, .signif, .signmul, .scale, .pack64] s

/-- The closed form (R103): `V = (-1)^w[31] * (2^23 + w[22:0]) * 2^(w[30:23] - 150)`, for every word at every offset
inside the contract; only the wires change. -/
def Obligations.DecodeClosedForm : Prop :=
  ∀ (s : State) (w : Word), s.offset + 4 ≤ s.mem.len → s.mem.fieldWord s.offset = w →
    ∃ t, exec .decode s = .next t ∧ t.wires.bits = w ∧
      t.wires.v.toRat =
        (-1 : Rat) ^ (w.extractLsb' 31 1).toNat * (2 ^ 23 + ((w.extractLsb' 0 23).toNat : Rat))
          * (2 : Rat) ^ (((w.extractLsb' 23 8).toNat : Int) - 150) ∧
      t = { s with wires := t.wires }

/-- Purity (R104): two invocations whose fields hold the same four bytes, in whichever buffers, at whichever offsets
and after whatever went before, drive the same wires, the value among them, and change nothing else. -/
def Obligations.DecodeDependsOnFourBytes : Prop :=
  ∀ s s' : State, s.offset + 4 ≤ s.mem.len → s'.offset + 4 ≤ s'.mem.len →
    (∀ i, i < 4 → s.mem.read (s.offset + i) = s'.mem.read (s'.offset + i)) →
      ∃ t t', exec .decode s = .next t ∧ exec .decode s' = .next t' ∧ t.wires = t'.wires ∧
        t = { s with wires := t.wires } ∧ t' = { s' with wires := t'.wires }

/-- The port carries the value exactly (R93, R95): for every word, `value64` read as binary64 is `V`, so nothing is
rounded, and its exponent field is in R95's range, never that of a zero, subnormal, infinity or NaN. The binary64
reading is general knowledge (G1; assumption log 12, PRESUMED). -/
def Obligations.PortCarriesExactValue : Prop :=
  ∀ s : State, s.offset + 4 ≤ s.mem.len →
    ∃ t, exec .decode s = .next t ∧ binary64Value t.wires.value64 = some t.wires.v.toRat ∧
      896 ≤ (t.wires.value64.extractLsb' 52 11).toNat ∧ (t.wires.value64.extractLsb' 52 11).toNat ≤ 1151

/-- The range of the result (R94): its bounds, never zero, its sign, the binade of each exponent, and the order of
magnitudes, which is the order of `bits[30:0]`. -/
def Obligations.ValueRangeAndOrder : Prop :=
  (∀ s : State, s.offset + 4 ≤ s.mem.len →
    ∃ t, exec .decode s = .next t ∧
      (2 : Rat) ^ (-127 : Int) ≤ |t.wires.v.toRat| ∧ |t.wires.v.toRat| ≤ (2 ^ 24 - 1) * 2 ^ 105 ∧
      t.wires.v.toRat ≠ 0 ∧ (t.wires.v.toRat < 0 ↔ t.wires.sign = 1#1) ∧
      |t.wires.v.toRat| = (t.wires.significand.toNat : Rat) * (2 : Rat) ^ t.wires.scaleK ∧
      (2 : Rat) ^ t.wires.expSigned ≤ |t.wires.v.toRat| ∧
      |t.wires.v.toRat| < (2 : Rat) ^ (t.wires.expSigned + 1)) ∧
  (∀ s s' t t' : State, exec .decode s = .next t → exec .decode s' = .next t' →
    (|t.wires.v.toRat| < |t'.wires.v.toRat| ↔ t.wires.bits.toNat % 2 ^ 31 < t'.wires.bits.toNat % 2 ^ 31))

/-- Exponent fields 0 and 255 (R97): the generic formula applied uniformly. The all-zero word gives 2^-127 and not 0,
an "infinity" word gives 2^128, a "NaN" word 1.5 * 2^128; the distance from the IEEE-754 value for exponent field 0,
which is general knowledge (G2; assumption log 12, PRESUMED). -/
def Obligations.ExtremeExponentsUseFormula : Prop :=
  ∀ (s : State) (w : Word), s.offset + 4 ≤ s.mem.len → s.mem.fieldWord s.offset = w →
    ∃ t, exec .decode s = .next t ∧
      (classOf w = .expZero →
        t.wires.v.toRat = (t.wires.signMul.toInt : Rat) * (2 ^ 23 + (t.wires.mantissa.toNat : Rat))
          * (2 : Rat) ^ (-150 : Int) ∧
        (2 : Rat) ^ (-127 : Int) ≤ |t.wires.v.toRat| ∧ |t.wires.v.toRat| < (2 : Rat) ^ (-126 : Int) ∧
        ∃ q, ieee32Value w = some q ∧
          |t.wires.v.toRat| - |q| = (2 ^ 23 - (t.wires.mantissa.toNat : Rat)) * (2 : Rat) ^ (-150 : Int)) ∧
      (classOf w = .expOnes →
        t.wires.v.toRat = (t.wires.signMul.toInt : Rat) * (2 ^ 23 + (t.wires.mantissa.toNat : Rat)) * 2 ^ 105 ∧
        2 ^ 128 ≤ |t.wires.v.toRat| ∧ |t.wires.v.toRat| < 2 ^ 129) ∧
      (w = 0x00000000#32 → t.wires.v.toRat = (2 : Rat) ^ (-127 : Int)) ∧
      (w = 0x80000000#32 → t.wires.v.toRat = -(2 : Rat) ^ (-127 : Int)) ∧
      (w = 0x7F800000#32 → t.wires.v.toRat = 340282366920938463463374607431768211456) ∧
      (w = 0x7FC00000#32 → t.wires.v.toRat = 510423550381407695195061911147652317184)

/-- The guarantee (R98): for every NORMAL word the value is the one IEEE-754 binary32 assigns to it, and for no other
word is it. The IEEE-754 value for exponent field 0 is general knowledge (G2; assumption log 12, PRESUMED). -/
def Obligations.NormalWordsMeetIeee754 : Prop :=
  ∀ (s : State) (w : Word), s.offset + 4 ≤ s.mem.len → s.mem.fieldWord s.offset = w →
    ∃ t, exec .decode s = .next t ∧ (ieee32Value w = some t.wires.v.toRat ↔ classOf w = .normal)

/-- The round trip (R106): a normalized finite value `q`, encoded as its word's canonical little-endian bytes, decodes
to `q` exactly, whatever bytes follow the field. -/
def Obligations.NormalValuesRoundTrip : Prop :=
  ∀ (w : Word) (q : Rat) (after : List Byte) (s : State), classOf w = .normal → ieee32Value w = some q →
    s.mem = Memory.ofBytes (encodePayload4 w ++ after) → s.offset = 0 →
      ∃ t, exec .decode s = .next t ∧ t.wires.v.toRat = q

/-- Distinct words give distinct values (R99), as numbers: from the value alone the word and the four bytes of the field
are recovered. -/
def Obligations.DistinctFieldsDistinctValues : Prop :=
  ∀ s s' t t' : State, exec .decode s = .next t → exec .decode s' = .next t' →
    t.wires.v.toRat = t'.wires.v.toRat →
      t.wires.bits = t'.wires.bits ∧
      ∀ i, i < 4 → s.mem.read (s.offset + i) = s'.mem.read (s'.offset + i)

/-- The classes (R55): by exponent field, and the three cover all words without overlap. -/
def Obligations.ClassesByExponentField : Prop :=
  ∀ w : Word,
    (classOf w = .expZero ↔ w.toNat / 2 ^ 23 % 256 = 0) ∧ (classOf w = .expOnes ↔ w.toNat / 2 ^ 23 % 256 = 255) ∧
      (classOf w = .normal ↔ 1 ≤ w.toNat / 2 ^ 23 % 256 ∧ w.toNat / 2 ^ 23 % 256 ≤ 254)

/-! ### The Uplink Adapter -/

/-- UPLINK.err (R111): a payload of fewer than 4 bytes, whatever its bytes, gives the failure form with the one message
and no decoding. The value outputs of UADP are free (assumption log 3): nothing is said of them. FDEC's do not change. -/
def Obligations.ShortPayloadFails : Prop :=
  ∀ s : State, s.mem.len < 4 →
    ∃ t, exec .uplinkErr s = .next t ∧
      t = { s with adapterWires := t.adapterWires, result := some (.err ["Not enough bytes for float"]),
                   freeCount := s.freeCount + 1 }

/-- UPLINK.ok (R112): a payload of at least 4 bytes gives the success form with the value of DECODE at offset 0, passed
through unchanged, whatever the bytes are; the offset port of FDEC is neither read nor changed, and FDEC's outputs stay. -/
def Obligations.LongPayloadSucceeds : Prop :=
  ∀ s : State, 4 ≤ s.mem.len →
    ∃ t u, exec .uplinkOk s = .next t ∧ exec .decode { s with offset := 0 } = .next u ∧
      t = { s with adapterWires := u.wires, result := some (.ok u.wires.v) } ∧
      u.wires.bits = s.mem.fieldWord 0

/-- A row of UPLINK whose condition does not hold is not performed (R58's `condition` entries): the model refuses it. -/
def Obligations.UnselectedRowIsRefused : Prop :=
  ∀ s : State, (4 ≤ s.mem.len → exec .uplinkErr s = .refused .rowNotSelected) ∧
    (s.mem.len < 4 → exec .uplinkOk s = .refused .rowNotSelected)

/-- UPLINK is total and produces exactly one form (R17, R113, R115, R121): for every payload the step completes; `err` is 1
exactly when the payload has fewer than 4 bytes, and `ok` is its negation; when `ok` is 1, `value64` and the Result carry
what DECODE of the payload at offset 0 gives (R112). That the offset port keeps its value is assumption log 10. -/
def Obligations.UplinkIsTotal : Prop :=
  ∀ (s : State) (bytes : List Byte) (off : Option Nat) (rest : List Invocation),
    s.pending = ⟨.uplink, some ⟨bytes, off⟩⟩ :: rest →
      ∃ t r o, step s = .next t ∧ t.result = some r ∧ adapterOutputs t = some o ∧ t.pending = rest ∧
        (o.err = 1#1 ↔ bytes.length < 4) ∧ o.ok = ~~~ o.err ∧
        ((∃ msgs, r = .err msgs) ↔ bytes.length < 4) ∧ ((∃ v, r = .ok v) ↔ 4 ≤ bytes.length) ∧
        (4 ≤ bytes.length →
          ∃ u, exec .decode { s with mem := Memory.ofBytes bytes, offset := 0 } = .next u ∧
            o.value64 = u.wires.value64 ∧ r = .ok u.wires.v) ∧
        t.mem.toBytes = bytes ∧ t.offset = s.offset

/-- Trailing bytes (R114): two payloads of at least 4 bytes that agree in their first four give the same Result. -/
def Obligations.TrailingBytesIgnored : Prop :=
  ∀ (s s' : State) (bytes bytes' : List Byte) (off off' : Option Nat) (rest rest' : List Invocation),
    s.pending = ⟨.uplink, some ⟨bytes, off⟩⟩ :: rest → s'.pending = ⟨.uplink, some ⟨bytes', off'⟩⟩ :: rest' →
    4 ≤ bytes.length → 4 ≤ bytes'.length → bytes.take 4 = bytes'.take 4 →
      ∃ t t' v, step s = .next t ∧ step s' = .next t' ∧ t.result = some (.ok v) ∧ t'.result = some (.ok v)

/-- The host's view (R61): the failure object holds one string of 26 characters and no field `data`; the success object
maps the single key `rolling_avg` to the value of the payload's first four bytes, and has no field `errors`. -/
def Obligations.HostSeesResultObject : Prop :=
  ∀ (s : State) (bytes : List Byte) (off : Option Nat) (rest : List Invocation),
    s.pending = ⟨.uplink, some ⟨bytes, off⟩⟩ :: rest →
      ∃ t r, step s = .next t ∧ t.result = some r ∧
        (bytes.length < 4 → r.hostObject = [("errors", .strings ["Not enough bytes for float"])]) ∧
        (4 ≤ bytes.length → ∃ v, r.hostObject = [("data", .mapping [("rolling_avg", v)])] ∧
          ∀ w : Word, bytes.take 4 = encodePayload4 w →
            v.toRat = (-1 : Rat) ^ (signOf w).toNat * (2 ^ 23 + ((mantissaOf w).toNat : Rat))
              * (2 : Rat) ^ (((expFieldOf w).toNat : Int) - 150)) ∧
        "Not enough bytes for float".length = 26

/-! ### Programs -/

/-- Invocations are independent (R10, R42, R126): what a host finds for each call of a program is what it would find for
that call alone on a block fresh from reset. So the order of calls is unobservable, and a failed call leaves nothing
behind. What a host finds, and that it goes on after a refused call, is the function `results`, the MODEL'S CHOICE
(assumption log 9, DESIGN CHOICE). -/
def Obligations.CallsAreIndependent : Prop :=
  ∀ (calls : List HostCall) (s : State),
    results calls s = calls.flatMap fun c => results [c] State.reset

/-- What a single call gives, in the spec's own terms (R17, R60, R103, R111, R112): inside the contract, every port of FDEC
carries what the word of the four bytes at the offset calls for, the value by the closed form; `handleUplink` gives the
one error for a short payload, and the decoder's value at offset 0 otherwise. The MODEL'S CHOICE in it: no result
outside the contract (assumption log 7, DEDUCED), the function `results` (log 9, DESIGN CHOICE) and the binary64 reading
of the port (log 12, PRESUMED). -/
def Obligations.SingleCallResponses : Prop :=
  (∀ (buffer : List Byte) (off : Option Nat) (s : State),
    (buffer.length < off.getD 0 + 4 → results [.decode buffer off] s = [none]) ∧
    (off.getD 0 + 4 ≤ buffer.length → ∃ o : DecoderOutputs,
      results [.decode buffer off] s = [some (.decoded o)] ∧
      (∀ w : Word, (buffer.drop (off.getD 0)).take 4 = encodePayload4 w → CarriesWord o w) ∧
      binary64Value o.value64 = some o.v.toRat ∧
      (4 ≤ buffer.length → off.getD 0 = 0 →
        results [.handleUplink buffer] s = [some (.uplink (.ok o.v))]))) ∧
  (∀ (bytes : List Byte) (s : State), bytes.length < 4 →
    results [.handleUplink bytes] s = [some (.uplink (.err ["Not enough bytes for float"]))])
end

