-- ==== Sys2Proof/Laws/Memory.lean ====
section
/-! SUPPORT. The Byte Buffer: what reading a presented buffer gives, the canonical form, and what FETCH4 reads. -/

namespace Sys2Proof.Machine

/-- Below the first index of a run, nothing is listed. -/
theorem Memory.lookup_cellsFrom_below (bytes : List Byte) (i a : Nat) (h : a < i) :
    Memory.lookup (Memory.cellsFrom i bytes) a = Memory.unlisted := by
  induction bytes generalizing i with
  | nil => rfl
  | cons b bs ih =>
    have hne : i ≠ a := by omega
    simp only [Memory.cellsFrom]
    split
    · exact ih (i + 1) (by omega)
    · simp only [Memory.lookup, if_neg hne]
      exact ih (i + 1) (by omega)

/-- A presented run reads back byte by byte; past its end it lists nothing. -/
theorem Memory.lookup_cellsFrom (bytes : List Byte) (i k : Nat) :
    Memory.lookup (Memory.cellsFrom i bytes) (i + k) = bytes.getD k Memory.unlisted := by
  induction bytes generalizing i k with
  | nil => simp [Memory.cellsFrom, Memory.lookup]
  | cons b bs ih =>
    cases k with
    | zero =>
      simp only [Memory.cellsFrom, Nat.add_zero]
      split
      · next hb => rw [Memory.lookup_cellsFrom_below bs (i + 1) i (by omega)]; simp [hb]
      · simp [Memory.lookup]
    | succ k =>
      have hne : i ≠ i + (k + 1) := by omega
      have step := ih (i + 1) k
      rw [show i + 1 + k = i + (k + 1) by omega] at step
      simp only [Memory.cellsFrom]
      split
      · simpa using step
      · simpa [Memory.lookup, hne] using step

@[simp] theorem Memory.ofBytes_len (bytes : List Byte) : (Memory.ofBytes bytes).len = bytes.length := rfl

/-- The byte at an index of a presented buffer. -/
theorem Memory.byteAt_ofBytes (bytes : List Byte) (k : Nat) :
    (Memory.ofBytes bytes).byteAt k = bytes.getD k Memory.unlisted := by
  have h := Memory.lookup_cellsFrom bytes 0 k
  rwa [Nat.zero_add] at h

/-- A presented buffer reads as the sequence it is, and as nothing past its end. -/
theorem Memory.read_ofBytes (bytes : List Byte) (k : Nat) : (Memory.ofBytes bytes).read k = bytes[k]? := by
  simp only [Memory.read, Memory.ofBytes_len, Memory.byteAt_ofBytes]
  split
  · next h => simp [h]
  · next h => simp [List.getElem?_eq_none (Nat.le_of_not_lt h)]

/-- A buffer as a sequence, index by index. -/
theorem Memory.getElem?_toBytes (m : Memory) (k : Nat) : m.toBytes[k]? = m.read k := by
  simp only [Memory.toBytes, Memory.read]
  split
  · next h => simp [h]
  · next h => simp [Nat.le_of_not_lt h]

/-- What the host presents is what stands on the port. -/
@[simp] theorem Memory.toBytes_ofBytes (bytes : List Byte) : (Memory.ofBytes bytes).toBytes = bytes :=
  List.ext_getElem? fun k => by rw [Memory.getElem?_toBytes, Memory.read_ofBytes]

/-- The cells of a run are canonical for any `len` that holds the run. -/
theorem Memory.cellsWf_cellsFrom (len : Nat) (bytes : List Byte) (lo i : Nat) (hlo : lo ≤ i)
    (hlen : i + bytes.length ≤ len) : Memory.cellsWf len lo (Memory.cellsFrom i bytes) = true := by
  induction bytes generalizing lo i with
  | nil => rfl
  | cons b bs ih =>
    simp only [List.length_cons] at hlen
    simp only [Memory.cellsFrom]
    split
    · exact ih lo (i + 1) (by omega) (by omega)
    · next hb =>
      have hlt : i < len := by omega
      simp [Memory.cellsWf, hlo, hlt, hb, ih (i + 1) (i + 1) (Nat.le_refl _) (by omega)]

/-- The one operation that makes a buffer makes it canonical. -/
theorem Memory.wf_ofBytes (bytes : List Byte) : (Memory.ofBytes bytes).wf = true :=
  Memory.cellsWf_cellsFrom bytes.length bytes 0 0 (Nat.le_refl 0) (by simp)

/-- FETCH4 inside its contract. -/
theorem Memory.fetchField_of_le {m : Memory} {a : Nat} (h : a + 4 ≤ m.len) :
    m.fetchField a = some ⟨m.byteAt a, m.byteAt (a + 1), m.byteAt (a + 2), m.byteAt (a + 3)⟩ := if_pos h

/-- FETCH4 outside its contract. -/
theorem Memory.fetchField_of_lt {m : Memory} {a : Nat} (h : m.len < a + 4) : m.fetchField a = none :=
  if_neg (by omega)

/-- All that FETCH4's read can answer. -/
theorem Memory.fetchField_cases (m : Memory) (a : Nat) :
    (a + 4 ≤ m.len ∧
        m.fetchField a = some ⟨m.byteAt a, m.byteAt (a + 1), m.byteAt (a + 2), m.byteAt (a + 3)⟩) ∨
      (m.len < a + 4 ∧ m.fetchField a = none) := by
  by_cases h : a + 4 ≤ m.len
  · exact .inl ⟨h, Memory.fetchField_of_le h⟩
  · exact .inr ⟨by omega, Memory.fetchField_of_lt (by omega)⟩

end Sys2Proof.Machine
end

