-- ==== Sys2Proof/Laws/State.lean ====
section
/-! SUPPORT. One lemma per field and per update of State, true by rfl, so that no proof unfolds a record update; then what
settling the outputs and presenting an invocation do. -/

namespace Sys2Proof.Machine

section updates
variable (s : State) (w : Wires) (e : UplinkError)

@[simp] theorem State.drive_mem : (s.drive w).mem = s.mem := rfl
@[simp] theorem State.drive_offset : (s.drive w).offset = s.offset := rfl
@[simp] theorem State.drive_wires : (s.drive w).wires = w := rfl
@[simp] theorem State.drive_adapterWires : (s.drive w).adapterWires = s.adapterWires := rfl
@[simp] theorem State.drive_result : (s.drive w).result = s.result := rfl
@[simp] theorem State.drive_presented : (s.drive w).presented = s.presented := rfl
@[simp] theorem State.drive_pending : (s.drive w).pending = s.pending := rfl
@[simp] theorem State.drive_freeCount : (s.drive w).freeCount = s.freeCount := rfl

@[simp] theorem State.driveAdapter_mem : (s.driveAdapter w).mem = s.mem := rfl
@[simp] theorem State.driveAdapter_offset : (s.driveAdapter w).offset = s.offset := rfl
@[simp] theorem State.driveAdapter_wires : (s.driveAdapter w).wires = s.wires := rfl
@[simp] theorem State.driveAdapter_adapterWires : (s.driveAdapter w).adapterWires = w := rfl
@[simp] theorem State.driveAdapter_result : (s.driveAdapter w).result = s.result := rfl
@[simp] theorem State.driveAdapter_presented : (s.driveAdapter w).presented = s.presented := rfl
@[simp] theorem State.driveAdapter_pending : (s.driveAdapter w).pending = s.pending := rfl
@[simp] theorem State.driveAdapter_freeCount : (s.driveAdapter w).freeCount = s.freeCount := rfl

@[simp] theorem State.releaseWires_mem : s.releaseWires.mem = s.mem := rfl
@[simp] theorem State.releaseWires_offset : s.releaseWires.offset = s.offset := rfl
@[simp] theorem State.releaseWires_wires : s.releaseWires.wires = Config.freeWires s.freeCount := rfl
@[simp] theorem State.releaseWires_adapterWires : s.releaseWires.adapterWires = s.adapterWires := rfl
@[simp] theorem State.releaseWires_result : s.releaseWires.result = s.result := rfl
@[simp] theorem State.releaseWires_presented : s.releaseWires.presented = s.presented := rfl
@[simp] theorem State.releaseWires_pending : s.releaseWires.pending = s.pending := rfl
@[simp] theorem State.releaseWires_freeCount : s.releaseWires.freeCount = s.freeCount + 1 := rfl

@[simp] theorem State.releaseAdapter_mem : s.releaseAdapter.mem = s.mem := rfl
@[simp] theorem State.releaseAdapter_offset : s.releaseAdapter.offset = s.offset := rfl
@[simp] theorem State.releaseAdapter_wires : s.releaseAdapter.wires = s.wires := rfl
@[simp] theorem State.releaseAdapter_adapterWires :
    s.releaseAdapter.adapterWires = Config.freeWires s.freeCount := rfl
@[simp] theorem State.releaseAdapter_result : s.releaseAdapter.result = s.result := rfl
@[simp] theorem State.releaseAdapter_presented : s.releaseAdapter.presented = s.presented := rfl
@[simp] theorem State.releaseAdapter_pending : s.releaseAdapter.pending = s.pending := rfl
@[simp] theorem State.releaseAdapter_freeCount : s.releaseAdapter.freeCount = s.freeCount + 1 := rfl

@[simp] theorem State.reportError_mem : (s.reportError e).mem = s.mem := rfl
@[simp] theorem State.reportError_offset : (s.reportError e).offset = s.offset := rfl
@[simp] theorem State.reportError_wires : (s.reportError e).wires = s.wires := rfl
@[simp] theorem State.reportError_adapterWires :
    (s.reportError e).adapterWires = Config.freeWires s.freeCount := rfl
@[simp] theorem State.reportError_result : (s.reportError e).result = some (.err [e.message]) := rfl
@[simp] theorem State.reportError_presented : (s.reportError e).presented = s.presented := rfl
@[simp] theorem State.reportError_pending : (s.reportError e).pending = s.pending := rfl
@[simp] theorem State.reportError_freeCount : (s.reportError e).freeCount = s.freeCount + 1 := rfl

@[simp] theorem State.reportValue_mem : s.reportValue.mem = s.mem := rfl
@[simp] theorem State.reportValue_offset : s.reportValue.offset = s.offset := rfl
@[simp] theorem State.reportValue_wires : s.reportValue.wires = s.wires := rfl
@[simp] theorem State.reportValue_adapterWires : s.reportValue.adapterWires = s.adapterWires := rfl
@[simp] theorem State.reportValue_result : s.reportValue.result = some (.ok s.adapterWires.v) := rfl
@[simp] theorem State.reportValue_presented : s.reportValue.presented = s.presented := rfl
@[simp] theorem State.reportValue_pending : s.reportValue.pending = s.pending := rfl
@[simp] theorem State.reportValue_freeCount : s.reportValue.freeCount = s.freeCount := rfl

end updates

/-! ### Settling FDEC's outputs -/

section settling
variable (s : State)

/-- Inside the contract the outputs are what the decoder drives. -/
theorem State.settle_of_le (h : s.offset + 4 ≤ s.mem.len) :
    s.settle =
      s.drive (Wires.decodeField ⟨s.mem.byteAt s.offset, s.mem.byteAt (s.offset + 1), s.mem.byteAt (s.offset + 2),
        s.mem.byteAt (s.offset + 3)⟩ s.wires) := by
  simp only [State.settle, Memory.fetchField_of_le h]

/-- Outside the contract the outputs are free. -/
theorem State.settle_of_lt (h : s.mem.len < s.offset + 4) : s.settle = s.releaseWires := by
  simp only [State.settle, Memory.fetchField_of_lt h]

/-- All that settling can change: FDEC's wires, and the number of draws. -/
theorem State.settle_eq : s.settle = { s with wires := s.settle.wires, freeCount := s.settle.freeCount } := by
  unfold State.settle
  split <;> rfl

@[simp] theorem State.settle_mem : s.settle.mem = s.mem := by rw [State.settle_eq]
@[simp] theorem State.settle_offset : s.settle.offset = s.offset := by rw [State.settle_eq]
@[simp] theorem State.settle_adapterWires : s.settle.adapterWires = s.adapterWires := by rw [State.settle_eq]
@[simp] theorem State.settle_result : s.settle.result = s.result := by rw [State.settle_eq]
@[simp] theorem State.settle_presented : s.settle.presented = s.presented := by rw [State.settle_eq]
@[simp] theorem State.settle_pending : s.settle.pending = s.pending := by rw [State.settle_eq]

end settling

/-! ### Presenting -/

section presenting
variable (s : State) (op : Operation) (inputs : Inputs)

@[simp] theorem State.putInputs_mem : (s.putInputs op inputs).mem = Memory.ofBytes inputs.bytes :=
  State.settle_mem _
@[simp] theorem State.putInputs_offset :
    (s.putInputs op inputs).offset = offsetPort op s.offset inputs.offset := State.settle_offset _
@[simp] theorem State.putInputs_adapterWires :
    (s.putInputs op inputs).adapterWires = Config.freeWires s.freeCount := State.settle_adapterWires _
@[simp] theorem State.putInputs_result : (s.putInputs op inputs).result = none := State.settle_result _
@[simp] theorem State.putInputs_presented : (s.putInputs op inputs).presented = s.presented :=
  State.settle_presented _
@[simp] theorem State.putInputs_pending : (s.putInputs op inputs).pending = s.pending := State.settle_pending _

/-- New inputs. -/
@[simp] theorem State.present_some :
    s.present ⟨op, some inputs⟩ = State.putInputs { s with presented := true } op inputs := rfl

/-- Kept inputs stand on the ports as the host put them, and nothing at all changes (R24, R135). -/
theorem State.present_none_of_presented (h : s.presented = true) : s.present ⟨op, none⟩ = s := if_pos h

/-- Kept inputs where none were ever presented: free inputs (assumption log 3). -/
theorem State.present_none_of_not_presented (h : s.presented = false) :
    s.present ⟨op, none⟩ =
      State.putInputs { s with freeCount := s.freeCount + 1 } op (Config.freeInputs s.freeCount) :=
  if_neg (by simp [h])

/-- All that presenting can do: nothing, or put inputs on the ports. -/
theorem State.present_cases (inv : Invocation) :
    (inv.inputs = none ∧ s.presented = true ∧ s.present inv = s) ∨
      ∃ (inputs : Inputs) (p : Bool) (n : Nat),
        s.present inv = State.putInputs { s with presented := p, freeCount := n } inv.op inputs := by
  rcases inv with ⟨op, _ | inputs⟩
  · by_cases h : s.presented = true
    · exact .inl ⟨rfl, h, State.present_none_of_presented s op h⟩
    · have hf : s.presented = false := by simpa using h
      exact .inr ⟨_, _, _, State.present_none_of_not_presented s op hf⟩
  · exact .inr ⟨inputs, true, s.freeCount, rfl⟩

/-- Presenting is the host's act, and leaves its queue alone. -/
@[simp] theorem State.present_pending (inv : Invocation) : (s.present inv).pending = s.pending := by
  rcases State.present_cases s inv with ⟨-, -, h⟩ | ⟨i, p, n, h⟩ <;> rw [h]
  exact State.putInputs_pending _ _ _

end presenting

/-- UADP has no offset input. -/
@[simp] theorem offsetPort_uplink (held : Nat) (given : Option Nat) : offsetPort .uplink held given = held := rfl

/-- Every operation of FDEC takes the offset given, or 0. -/
theorem offsetPort_of_ne {op : Operation} (h : op ≠ .uplink) (held : Nat) (given : Option Nat) :
    offsetPort op held given = given.getD 0 := by
  cases op <;> first | rfl | exact absurd rfl h

end Sys2Proof.Machine
end

