-- ==== Sys2Proof/Laws/Exec.lean ====
section
/-! SUPPORT. What the decoder drives onto each wire, and all that `exec` can answer. -/

namespace Sys2Proof.Machine

section decoded
variable (f : Payload4) (w : Wires)

/-- The decoder overwrites every wire, so nothing of the wires before remains (R10, R104). -/
theorem Wires.decodeField_irrelevant (w' : Wires) : Wires.decodeField f w = Wires.decodeField f w' := rfl

@[simp] theorem Wires.decodeField_b0 : (Wires.decodeField f w).b0 = f.b0 := rfl
@[simp] theorem Wires.decodeField_b1 : (Wires.decodeField f w).b1 = f.b1 := rfl
@[simp] theorem Wires.decodeField_b2 : (Wires.decodeField f w).b2 = f.b2 := rfl
@[simp] theorem Wires.decodeField_b3 : (Wires.decodeField f w).b3 = f.b3 := rfl
@[simp] theorem Wires.decodeField_bits :
    (Wires.decodeField f w).bits = assembleWord f.b0 f.b1 f.b2 f.b3 := rfl
@[simp] theorem Wires.decodeField_sign :
    (Wires.decodeField f w).sign = signOf (assembleWord f.b0 f.b1 f.b2 f.b3) := rfl
@[simp] theorem Wires.decodeField_expField :
    (Wires.decodeField f w).expField = expFieldOf (assembleWord f.b0 f.b1 f.b2 f.b3) := rfl
@[simp] theorem Wires.decodeField_expSigned :
    (Wires.decodeField f w).expSigned = unbiased (expFieldOf (assembleWord f.b0 f.b1 f.b2 f.b3)) := rfl
@[simp] theorem Wires.decodeField_mantissa :
    (Wires.decodeField f w).mantissa = mantissaOf (assembleWord f.b0 f.b1 f.b2 f.b3) := rfl
@[simp] theorem Wires.decodeField_significand :
    (Wires.decodeField f w).significand = significandOf (mantissaOf (assembleWord f.b0 f.b1 f.b2 f.b3)) := rfl
@[simp] theorem Wires.decodeField_signMul :
    (Wires.decodeField f w).signMul = signMulOf (signOf (assembleWord f.b0 f.b1 f.b2 f.b3)) := rfl
@[simp] theorem Wires.decodeField_scaleK :
    (Wires.decodeField f w).scaleK =
      scaleExponent (unbiased (expFieldOf (assembleWord f.b0 f.b1 f.b2 f.b3))) := rfl
@[simp] theorem Wires.decodeField_v :
    (Wires.decodeField f w).v =
      scaledValue (signMulOf (signOf (assembleWord f.b0 f.b1 f.b2 f.b3)))
        (significandOf (mantissaOf (assembleWord f.b0 f.b1 f.b2 f.b3)))
        (unbiased (expFieldOf (assembleWord f.b0 f.b1 f.b2 f.b3))) := rfl
@[simp] theorem Wires.decodeField_value64 :
    (Wires.decodeField f w).value64 =
      packed64 (signOf (assembleWord f.b0 f.b1 f.b2 f.b3)) (expFieldOf (assembleWord f.b0 f.b1 f.b2 f.b3))
        (mantissaOf (assembleWord f.b0 f.b1 f.b2 f.b3)) := rfl

end decoded

/-- Settled wires are what DECODE of the field on the ports drives. -/
theorem State.settle_wires {s : State} {f : Payload4} (h : s.mem.fetchField s.offset = some f) (w : Wires) :
    s.settle.wires = Wires.decodeField f w := by
  simp only [State.settle, h]
  exact Wires.decodeField_irrelevant _ _ _

/-- Inputs put on the ports settle FDEC's wires (R141). -/
theorem State.putInputs_wires {s : State} {op : Operation} {inputs : Inputs} {f : Payload4}
    (h : (Memory.ofBytes inputs.bytes).fetchField (offsetPort op s.offset inputs.offset) = some f) (w : Wires) :
    (s.putInputs op inputs).wires = Wires.decodeField f w :=
  State.settle_wires h w

/-- DECODE inside the contract. -/
theorem exec_decode_of_le {s : State} (h : s.offset + 4 ≤ s.mem.len) :
    exec .decode s =
      .next (s.drive (Wires.decodeField ⟨s.mem.byteAt s.offset, s.mem.byteAt (s.offset + 1),
        s.mem.byteAt (s.offset + 2), s.mem.byteAt (s.offset + 3)⟩ s.wires)) := by
  simp only [exec, execDecode, Memory.fetchField_of_le h]

/-- DECODE outside the contract. -/
theorem exec_decode_of_lt {s : State} (h : s.mem.len < s.offset + 4) : exec .decode s = .refused .outOfContract := by
  simp only [exec, execDecode, Memory.fetchField_of_lt h]

/-- DECODE has a next state only inside the contract. -/
theorem exec_decode_next {s t : State} (h : exec .decode s = .next t) :
    s.offset + 4 ≤ s.mem.len ∧
      t = s.drive (Wires.decodeField ⟨s.mem.byteAt s.offset, s.mem.byteAt (s.offset + 1),
        s.mem.byteAt (s.offset + 2), s.mem.byteAt (s.offset + 3)⟩ s.wires) := by
  by_cases hle : s.offset + 4 ≤ s.mem.len
  · rw [exec_decode_of_le hle] at h
    exact ⟨hle, (Host.Outcome.next.inj h).symm⟩
  · rw [exec_decode_of_lt (by omega)] at h
    cases h

/-- FETCH4 inside the contract. -/
theorem exec_fetch4_of_le {s : State} (h : s.offset + 4 ≤ s.mem.len) :
    exec .fetch4 s =
      .next (s.drive (Wires.fetch4 ⟨s.mem.byteAt s.offset, s.mem.byteAt (s.offset + 1),
        s.mem.byteAt (s.offset + 2), s.mem.byteAt (s.offset + 3)⟩ s.wires)) := by
  simp only [exec, execFetch4, Memory.fetchField_of_le h]

/-- FETCH4 outside the contract. -/
theorem exec_fetch4_of_lt {s : State} (h : s.mem.len < s.offset + 4) : exec .fetch4 s = .refused .outOfContract := by
  simp only [exec, execFetch4, Memory.fetchField_of_lt h]

/-- UPLINK.err on a short payload. -/
theorem exec_uplinkErr_of_lt {s : State} (h : s.mem.len < 4) :
    exec .uplinkErr s = .next (s.reportError .insufficientPayloadLength) := if_pos h

/-- UPLINK.ok on a payload of at least 4 bytes. -/
theorem exec_uplinkOk_of_le {s : State} (h : 4 ≤ s.mem.len) :
    exec .uplinkOk s =
      .next (s.driveAdapter (Wires.decodeField ⟨s.mem.byteAt 0, s.mem.byteAt 1, s.mem.byteAt 2, s.mem.byteAt 3⟩
        s.adapterWires)).reportValue := by
  have hn : ¬ s.mem.len < minPayload := Nat.not_lt.mpr h
  have ha : adapterOffset + 4 ≤ s.mem.len := by unfold adapterOffset; omega
  simp only [exec, execUplinkOk, if_neg hn, Memory.fetchField_of_le ha]
  rfl

/-- The stages, each as a function of the wires, by operation; the field is the one FETCH4 and DECODE read. -/
theorem exec_fdec_eq {op : Operation} {s : State} {f : Payload4} (hop : op ≠ .uplink) (len : Nat)
    (hf : s.mem.fetchField s.offset = some f) :
    ∃ stage : Wires → Wires, exec (decodeOp op len) s = .next (s.drive (stage s.wires)) ∧
      ∀ w, stage (Wires.decodeField f w) = Wires.decodeField f w := by
  cases op
  case uplink => exact absurd rfl hop
  case fetch4 => exact ⟨Wires.fetch4 f, by simp only [decodeOp, exec, execFetch4, hf], fun _ => rfl⟩
  case assemble => exact ⟨Wires.assemble, rfl, fun _ => rfl⟩
  case xsign => exact ⟨Wires.xsign, rfl, fun _ => rfl⟩
  case xexp => exact ⟨Wires.xexp, rfl, fun _ => rfl⟩
  case unbias => exact ⟨Wires.unbias, rfl, fun _ => rfl⟩
  case xmant => exact ⟨Wires.xmant, rfl, fun _ => rfl⟩
  case signif => exact ⟨Wires.signif, rfl, fun _ => rfl⟩
  case signmul => exact ⟨Wires.signmul, rfl, fun _ => rfl⟩
  case scale => exact ⟨Wires.scale, rfl, fun _ => rfl⟩
  case pack64 => exact ⟨Wires.pack64, rfl, fun _ => rfl⟩
  case decode => exact ⟨Wires.decodeField f, by simp only [decodeOp, exec, execDecode, hf], fun w => Wires.decodeField_irrelevant f _ w⟩

/-- Where FDEC's wires already follow the inputs, an operation of FDEC finds its outputs driven and changes nothing: the
block is combinational (R141, R148). -/
theorem exec_settled {op : Operation} {s : State} {f : Payload4} (hop : op ≠ .uplink) (len : Nat)
    (hf : s.mem.fetchField s.offset = some f) (hw : s.wires = Wires.decodeField f s.wires) :
    exec (decodeOp op len) s = .next s := by
  obtain ⟨stage, h, hs⟩ := exec_fdec_eq hop len hf
  rw [h]
  refine congrArg _ ?_
  have := hs s.wires
  rw [← hw] at this
  rw [this, State.drive]

/-- What a next state of `exec` is: FDEC's wires driven by a stage or by the decoder, or one of the two forms of the
Result produced by UADP, with FDEC's wires left alone (R110, R125). -/
theorem exec_next_cases {i : Instr} {s t : State} (h : exec i s = .next t) :
    (i ≠ .uplinkErr ∧ i ≠ .uplinkOk ∧ t = s.drive t.wires) ∨
      (i = .uplinkErr ∧ s.mem.len < 4 ∧ t = s.reportError .insufficientPayloadLength) ∨
      (i = .uplinkOk ∧ 4 ≤ s.mem.len ∧
        ∃ f, s.mem.fetchField 0 = some f ∧
          t = (s.driveAdapter (Wires.decodeField f s.adapterWires)).reportValue) := by
  cases i
  case fetch4 =>
    simp only [exec, execFetch4] at h
    split at h <;> simp_all
    subst h; rfl
  case decode =>
    simp only [exec, execDecode] at h
    split at h
    · simp only [Host.Outcome.next.injEq] at h
      subst h; simp
    · simp at h
  case uplinkErr =>
    simp only [exec, execUplinkErr] at h
    split at h
    · next hlt =>
      simp only [Host.Outcome.next.injEq] at h
      exact .inr (.inl ⟨rfl, hlt, h.symm⟩)
    · cases h
  case uplinkOk =>
    simp only [exec, execUplinkOk] at h
    split at h
    · simp at h
    · next hlen =>
      split at h
      · next f hfetch =>
        simp only [Host.Outcome.next.injEq] at h
        exact .inr (.inr ⟨rfl, Nat.le_of_not_lt hlen, f, hfetch, h.symm⟩)
      · simp at h
  all_goals
    simp only [exec, execAssemble, execXsign, execXexp, execUnbias, execXmant, execSignif, execSignmul, execScale,
      execPack64, Host.Outcome.next.injEq] at h
    subst h
    simp

end Sys2Proof.Machine
end

