-- ==== Sys2Proof/Laws/Invariant.lean ====
section
/-! SUPPORT. The operations that make the invariant, and those that keep it. -/

namespace Sys2Proof.Machine

/-- Whatever inputs go onto the ports, and whatever stood before, the invariant holds after. -/
theorem putInputs_inv (s : State) (op : Operation) (inputs : Inputs) : Inv (s.putInputs op inputs) where
  memory := by rw [State.putInputs_mem]; exact Memory.wf_ofBytes _
  decoder := fun f hf => by
    rw [State.putInputs_mem, State.putInputs_offset] at hf
    exact State.putInputs_wires hf _
  result := by unfold ResultFollowsInputs; rw [State.putInputs_result]; trivial

/-- The host's queue plays no part in it. -/
theorem inv_withPending {s : State} (h : Inv s) (q : List Invocation) : Inv { s with pending := q } where
  memory := h.memory
  decoder := h.decoder
  result := h.result

/-- Presenting keeps the invariant. -/
theorem present_inv {s : State} (h : Inv s) (inv : Invocation) : Inv (s.present inv) := by
  rcases State.present_cases s inv with ⟨-, -, hp⟩ | ⟨inputs, p, n, hp⟩ <;> rw [hp]
  · exact h
  · exact putInputs_inv _ _ _

/-- The failure form on a short payload keeps the invariant. -/
theorem reportError_inv {s : State} (h : Inv s) (hlen : s.mem.len < 4) :
    Inv (s.reportError .insufficientPayloadLength) where
  memory := h.memory
  decoder := h.decoder
  result := ⟨hlen, rfl⟩

/-- The success form, with the field of the buffer decoded, keeps the invariant. -/
theorem reportValue_inv {s : State} (h : Inv s) {f : Payload4} (hf : s.mem.fetchField 0 = some f) :
    Inv (s.driveAdapter (Wires.decodeField f s.adapterWires)).reportValue where
  memory := h.memory
  decoder := h.decoder
  result := ⟨f, hf, Wires.decodeField_irrelevant _ _ _, rfl⟩

end Sys2Proof.Machine
end

