-- ==== Sys2Proof/Laws/PerInstr.lean ====
section
/-! SUPPORT. Statements for all instructions, one lemma per constructor of Instr. -/

namespace Sys2Proof.Laws.Selected

/-- Encoded for inputs the row applies to, the row is the one the decoder selects. -/
def Statement (i : Instr) : Prop :=
  ∀ (bytes : List Byte) (offset : Option Nat), i.wellFormed bytes.length (offset.getD 0) = true →
    decodeOp (encode i bytes offset).op bytes.length = i

theorem fetch4 : Statement .fetch4 := fun _ _ _ => rfl
theorem assemble : Statement .assemble := fun _ _ _ => rfl
theorem xsign : Statement .xsign := fun _ _ _ => rfl
theorem xexp : Statement .xexp := fun _ _ _ => rfl
theorem unbias : Statement .unbias := fun _ _ _ => rfl
theorem xmant : Statement .xmant := fun _ _ _ => rfl
theorem signif : Statement .signif := fun _ _ _ => rfl
theorem signmul : Statement .signmul := fun _ _ _ => rfl
theorem scale : Statement .scale := fun _ _ _ => rfl
theorem pack64 : Statement .pack64 := fun _ _ _ => rfl
theorem decode : Statement .decode := fun _ _ _ => rfl

theorem uplinkErr : Statement .uplinkErr := fun _ _ h => if_pos (of_decide_eq_true h)

theorem uplinkOk : Statement .uplinkOk := fun _ _ h => if_neg (Nat.not_lt.mpr (of_decide_eq_true h))

end Sys2Proof.Laws.Selected
end

