-- ==== Sys2Proof/Laws/Step.lean ====
section
/-! SUPPORT. A step on presented inputs, row by row. -/

namespace Sys2Proof.Machine

/-- The short row of UPLINK is selected below 4 bytes (R58). -/
theorem decodeOp_uplink_of_lt {len : Nat} (h : len < 4) : decodeOp .uplink len = .uplinkErr := if_pos h

/-- The long row of UPLINK is selected from 4 bytes on (R58). -/
theorem decodeOp_uplink_of_le {len : Nat} (h : 4 ≤ len) : decodeOp .uplink len = .uplinkOk :=
  if_neg (Nat.not_lt.mpr h)

/-- A row of UPLINK is selected only for the operation UPLINK. -/
theorem decodeOp_eq_uplink {op : Operation} {len : Nat}
    (h : decodeOp op len = .uplinkErr ∨ decodeOp op len = .uplinkOk) : op = .uplink := by
  cases op <;> simp_all [decodeOp]

/-- A step with new inputs: the row is selected by the length of the bytes presented. -/
theorem step_with_inputs {s : State} {op : Operation} {bytes : List Byte} {off : Option Nat}
    {rest : List Invocation} (h : s.pending = ⟨op, some ⟨bytes, off⟩⟩ :: rest) :
    step s = exec (decodeOp op bytes.length) (State.present { s with pending := rest } ⟨op, some ⟨bytes, off⟩⟩) := by
  unfold step
  rw [h]
  simp

/-- A step on kept inputs runs on the state as it stands. -/
theorem step_kept {s : State} {op : Operation} {rest : List Invocation} (hp : s.presented = true)
    (h : s.pending = ⟨op, none⟩ :: rest) :
    step s = exec (decodeOp op s.mem.len) { s with pending := rest } := by
  unfold step
  rw [h]
  simp only [State.present_none_of_presented { s with pending := rest } op hp]

/-- UPLINK on a short payload. -/
theorem step_uplink_of_lt {s : State} {bytes : List Byte} {off : Option Nat} {rest : List Invocation}
    (h : s.pending = ⟨.uplink, some ⟨bytes, off⟩⟩ :: rest) (hlen : bytes.length < 4) :
    step s =
      .next ((State.present { s with pending := rest } ⟨.uplink, some ⟨bytes, off⟩⟩).reportError
        .insufficientPayloadLength) := by
  rw [step_with_inputs h, decodeOp_uplink_of_lt hlen]
  exact exec_uplinkErr_of_lt (by simpa using hlen)

/-- UPLINK on a payload of at least 4 bytes. -/
theorem step_uplink_of_le {s : State} {bytes : List Byte} {off : Option Nat} {rest : List Invocation}
    (h : s.pending = ⟨.uplink, some ⟨bytes, off⟩⟩ :: rest) (hlen : 4 ≤ bytes.length) :
    step s =
      .next ((State.present { s with pending := rest } ⟨.uplink, some ⟨bytes, off⟩⟩).driveAdapter
        (Wires.decodeField
          ⟨(Memory.ofBytes bytes).byteAt 0, (Memory.ofBytes bytes).byteAt 1, (Memory.ofBytes bytes).byteAt 2,
            (Memory.ofBytes bytes).byteAt 3⟩ (Config.freeWires s.freeCount))).reportValue := by
  rw [step_with_inputs h, decodeOp_uplink_of_le hlen, exec_uplinkOk_of_le (by simpa using hlen)]
  simp

/-- Presenting new inputs inside the contract settles FDEC's wires: they are what DECODE drives (R141). -/
theorem present_wires_of_le {s : State} {op : Operation} {bytes : List Byte} {off : Option Nat} (hop : op ≠ .uplink)
    (hlen : off.getD 0 + 4 ≤ bytes.length) (w : Wires) :
    (s.present ⟨op, some ⟨bytes, off⟩⟩).wires =
      Wires.decodeField
        ⟨(Memory.ofBytes bytes).byteAt (off.getD 0), (Memory.ofBytes bytes).byteAt (off.getD 0 + 1),
          (Memory.ofBytes bytes).byteAt (off.getD 0 + 2), (Memory.ofBytes bytes).byteAt (off.getD 0 + 3)⟩ w := by
  refine State.putInputs_wires ?_ w
  simp only [offsetPort_of_ne hop]
  exact Memory.fetchField_of_le hlen

/-- Every operation of FDEC, used with new inputs inside the contract, leaves the outputs those inputs call for. -/
theorem step_fdec_of_le {s : State} {op : Operation} {bytes : List Byte} {off : Option Nat} {rest : List Invocation}
    (hop : op ≠ .uplink) (h : s.pending = ⟨op, some ⟨bytes, off⟩⟩ :: rest) (hlen : off.getD 0 + 4 ≤ bytes.length) :
    step s = .next (State.present { s with pending := rest } ⟨op, some ⟨bytes, off⟩⟩) := by
  rw [step_with_inputs h]
  refine exec_settled hop (f := ⟨(Memory.ofBytes bytes).byteAt (off.getD 0),
    (Memory.ofBytes bytes).byteAt (off.getD 0 + 1), (Memory.ofBytes bytes).byteAt (off.getD 0 + 2),
    (Memory.ofBytes bytes).byteAt (off.getD 0 + 3)⟩) _ ?_ ?_
  · simp only [State.present_some, State.putInputs_mem, State.putInputs_offset, offsetPort_of_ne hop]
    exact Memory.fetchField_of_le hlen
  · exact present_wires_of_le hop hlen _

/-- DECODE outside the contract. -/
theorem step_decode_of_lt {s : State} {bytes : List Byte} {off : Option Nat} {rest : List Invocation}
    (h : s.pending = ⟨.decode, some ⟨bytes, off⟩⟩ :: rest) (hlen : bytes.length < off.getD 0 + 4) :
    step s = .refused .outOfContract := by
  rw [step_with_inputs h]
  exact exec_decode_of_lt (by simpa [offsetPort] using hlen)

end Sys2Proof.Machine
end

