-- ==== Sys2Proof/Laws/Word.lean ====
section
/-! SUPPORT. The bit-vector functions as numbers and as concatenations. -/

namespace Sys2Proof.Machine

/-- The four shifted bytes occupy disjoint ranges, so OR is concatenation (R71). -/
theorem assembleWord_eq_append (b0 b1 b2 b3 : Byte) : assembleWord b0 b1 b2 b3 = b3 ++ b2 ++ b1 ++ b0 := by
  apply BitVec.eq_of_getLsbD_eq
  intro i hi
  simp only [assembleWord, BitVec.getLsbD_or, BitVec.getLsbD_setWidth, BitVec.getLsbD_shiftLeft,
    BitVec.getLsbD_append]
  have h0 : ∀ (b : Byte) (k : Nat), 8 ≤ k → b.getLsbD k = false := fun b k hk => BitVec.getLsbD_of_ge b k hk
  by_cases h8 : i < 8
  · simp [h8, hi, show i < 16 by omega, show i < 24 by omega]
  · by_cases h16 : i < 16
    · simp [h8, h16, hi, show i < 24 by omega, show i - 8 < 8 by omega, h0 b0 i (by omega), show i - 8 < 32 by omega]
    · by_cases h24 : i < 24
      · simp [h8, h16, h24, hi, h0 b0 i (by omega), h0 b1 (i - 8) (by omega), show ¬ i - 8 < 8 by omega,
          show i - 8 - 8 = i - 16 by omega, show i - 16 < 8 by omega, show i - 16 < 32 by omega]
      · simp [h8, h16, h24, hi, h0 b0 i (by omega), h0 b1 (i - 8) (by omega), h0 b2 (i - 16) (by omega),
          show ¬ i - 8 < 8 by omega, show i - 8 - 8 - 8 = i - 24 by omega, show ¬ i - 8 - 8 < 8 by omega,
          show i - 24 < 32 by omega]

/-- Concatenation as a number. -/
theorem append_bytes_toNat (b0 b1 b2 b3 : Byte) :
    (b3 ++ b2 ++ b1 ++ b0).toNat = b0.toNat + 256 * b1.toNat + 65536 * b2.toNat + 16777216 * b3.toNat := by
  have h0 := b0.isLt; have h1 := b1.isLt; have h2 := b2.isLt
  simp only [BitVec.toNat_append]
  rw [← Nat.shiftLeft_add_eq_or_of_lt h2, ← Nat.shiftLeft_add_eq_or_of_lt h1, ← Nat.shiftLeft_add_eq_or_of_lt h0]
  simp only [Nat.shiftLeft_eq]
  omega

/-- The word as a number (R71). -/
theorem assembleWord_toNat (b0 b1 b2 b3 : Byte) :
    (assembleWord b0 b1 b2 b3).toNat = b0.toNat + 256 * b1.toNat + 65536 * b2.toNat + 16777216 * b3.toNat := by
  rw [assembleWord_eq_append, append_bytes_toNat]

/-- The sign as a number (R80). -/
theorem signOf_toNat (w : Word) : (signOf w).toNat = w.toNat / 2 ^ 31 := by
  have := w.isLt
  simp only [signOf, BitVec.extractLsb'_toNat, Nat.shiftRight_eq_div_pow]
  omega

/-- The exponent field as a number (R81). -/
theorem expFieldOf_toNat (w : Word) : (expFieldOf w).toNat = w.toNat / 2 ^ 23 % 256 := by
  simp only [expFieldOf, BitVec.extractLsb'_toNat, Nat.shiftRight_eq_div_pow]

/-- The mantissa as a number (R83). -/
theorem mantissaOf_toNat (w : Word) : (mantissaOf w).toNat = w.toNat % 2 ^ 23 := by
  simp [mantissaOf, BitVec.extractLsb'_toNat]

/-- OR with the implicit bit is addition (R84). -/
theorem significandOf_toNat (m : BitVec 23) : (significandOf m).toNat = 8388608 + m.toNat := by
  have hm := m.isLt
  have hw : (m.setWidth 24).toNat = m.toNat := by
    rw [BitVec.toNat_setWidth]; exact Nat.mod_eq_of_lt (by omega)
  have h := Nat.shiftLeft_add_eq_or_of_lt hm 1
  rw [significandOf, BitVec.toNat_or, hw]
  simpa [Nat.shiftLeft_eq] using h.symm

/-- The output port as a number (R95). -/
theorem packed64_toNat (sg : BitVec 1) (e : BitVec 8) (m : BitVec 23) :
    (packed64 sg e m).toNat = sg.toNat * 2 ^ 63 + (e.toNat + 896) * 2 ^ 52 + m.toNat * 2 ^ 29 := by
  have hm := m.isLt; have he := e.isLt; have hs := sg.isLt
  have hx : (e.setWidth 11 + rebias).toNat = e.toNat + 896 := by
    have hr : rebias.toNat = 896 := rfl
    rw [BitVec.toNat_add, BitVec.toNat_setWidth, hr]
    omega
  have hx' : (e.setWidth 11 + rebias).toNat < 2 ^ 11 := (e.setWidth 11 + rebias).isLt
  rw [packed64]
  simp only [BitVec.toNat_append]
  rw [← Nat.shiftLeft_add_eq_or_of_lt hx', ← Nat.shiftLeft_add_eq_or_of_lt hm,
    ← Nat.shiftLeft_add_eq_or_of_lt (BitVec.isLt 0#29), hx]
  simp only [Nat.shiftLeft_eq, BitVec.toNat_ofNat]
  omega

/-- Format B32 as a number (R85). -/
theorem encodeB32_toNat (sg : BitVec 1) (e : BitVec 8) (m : BitVec 23) :
    (encodeB32 sg e m).toNat = sg.toNat * 2 ^ 31 + e.toNat * 2 ^ 23 + m.toNat := by
  have hm := m.isLt; have he := e.isLt
  rw [encodeB32]
  simp only [BitVec.toNat_append]
  rw [← Nat.shiftLeft_add_eq_or_of_lt he, ← Nat.shiftLeft_add_eq_or_of_lt hm]
  simp only [Nat.shiftLeft_eq]
  omega

/-- The fields of a word and the word of the fields are inverse (R85). -/
theorem encodeB32_fields (w : Word) : encodeB32 (signOf w) (expFieldOf w) (mantissaOf w) = w := by
  have hw := w.isLt
  apply BitVec.eq_of_toNat_eq
  rw [encodeB32_toNat, signOf_toNat, expFieldOf_toNat, mantissaOf_toNat]
  omega

theorem signOf_encodeB32 (sg : BitVec 1) (e : BitVec 8) (m : BitVec 23) : signOf (encodeB32 sg e m) = sg := by
  have hm := m.isLt; have he := e.isLt
  apply BitVec.eq_of_toNat_eq
  rw [signOf_toNat, encodeB32_toNat]
  omega

theorem expFieldOf_encodeB32 (sg : BitVec 1) (e : BitVec 8) (m : BitVec 23) : expFieldOf (encodeB32 sg e m) = e := by
  have hm := m.isLt; have he := e.isLt
  apply BitVec.eq_of_toNat_eq
  rw [expFieldOf_toNat, encodeB32_toNat]
  omega

theorem mantissaOf_encodeB32 (sg : BitVec 1) (e : BitVec 8) (m : BitVec 23) : mantissaOf (encodeB32 sg e m) = m := by
  have hm := m.isLt; have he := e.isLt
  apply BitVec.eq_of_toNat_eq
  rw [mantissaOf_toNat, encodeB32_toNat]
  omega

end Sys2Proof.Machine
end

