-- ==== Sys2Proof/Laws/Values.lean ====
section
/-! SUPPORT. The numbers: the closed form of the scaled value, its fraction form, the binary64 reading of the port, and
what FDEC's ports carry after decoding a field. -/

namespace Sys2Proof.Machine

/-- One bit is 0 or 1. -/
theorem bit_cases (b : BitVec 1) : b = 0#1 ∨ b = 1#1 := by
  have hb := b.isLt
  rcases (show b.toNat = 0 ∨ b.toNat = 1 by omega) with h | h
  · exact .inl (BitVec.eq_of_toNat_eq h)
  · exact .inr (BitVec.eq_of_toNat_eq h)

/-- The sign multiplier as a power of -1. -/
theorem signMulOf_toRat (b : BitVec 1) : ((signMulOf b).toInt : Rat) = (-1) ^ b.toNat := by
  rcases bit_cases b with rfl | rfl <;> simp [signMulOf, SignMul.toInt]

/-- The value that the stages compute from three fields is the closed form (R103). -/
theorem scaledValue_toRat (sg : BitVec 1) (e : BitVec 8) (m : BitVec 23) :
    (scaledValue (signMulOf sg) (significandOf m) (unbiased e)).toRat =
      (-1 : Rat) ^ sg.toNat * (2 ^ 23 + (m.toNat : Rat)) * (2 : Rat) ^ ((e.toNat : Int) - 150) := by
  have hk : (e.toNat : Int) - 127 - 23 = (e.toNat : Int) - 150 := by omega
  simp only [Value.toRat, scaledValue, signMulOf_toRat, significandOf_toNat, scaleExponent, unbiased, bias,
    fractionBits, hk]
  norm_num

/-- The integer form of the significand is its fraction form, 23 places up (R91, R92). -/
theorem significand_fraction (m : BitVec 23) (e : Int) :
    (2 ^ 23 + (m.toNat : Rat)) * (2 : Rat) ^ (e - 23) = (1 + (m.toNat : Rat) / 2 ^ 23) * (2 : Rat) ^ e := by
  rw [zpow_sub₀ (by norm_num)]
  norm_num
  ring

/-- The magnitude of the closed form (R94). -/
theorem abs_scaledValue_toRat (sg : BitVec 1) (e : BitVec 8) (m : BitVec 23) :
    |(scaledValue (signMulOf sg) (significandOf m) (unbiased e)).toRat| =
      (2 ^ 23 + (m.toNat : Rat)) * (2 : Rat) ^ ((e.toNat : Int) - 150) := by
  have hm : (0 : Rat) < 2 ^ 23 + (m.toNat : Rat) := by positivity
  have hk : (0 : Rat) < (2 : Rat) ^ ((e.toNat : Int) - 150) := by positivity
  rw [scaledValue_toRat, abs_mul, abs_mul, abs_pow, abs_neg, abs_one, one_pow, one_mul, abs_of_pos hm, abs_of_pos hk]

/-- The fields of the output port, read back (R57). -/
theorem packed64_fields (sg : BitVec 1) (e : BitVec 8) (m : BitVec 23) :
    (packed64 sg e m).extractLsb' 63 1 = sg ∧ ((packed64 sg e m).extractLsb' 52 11).toNat = e.toNat + 896 ∧
      (packed64 sg e m).extractLsb' 29 23 = m ∧ (packed64 sg e m).extractLsb' 0 29 = 0#29 ∧
      ((packed64 sg e m).extractLsb' 0 52).toNat = m.toNat * 2 ^ 29 := by
  have hm := m.isLt; have he := e.isLt; have hs := sg.isLt
  have hp := packed64_toNat sg e m
  refine ⟨BitVec.eq_of_toNat_eq ?_, ?_, BitVec.eq_of_toNat_eq ?_, BitVec.eq_of_toNat_eq ?_, ?_⟩ <;>
    simp only [BitVec.extractLsb'_toNat, Nat.shiftRight_eq_div_pow, BitVec.toNat_ofNat, hp] <;> omega

/-- The output port read as binary64 (R95). -/
theorem binary64Value_packed64 (sg : BitVec 1) (e : BitVec 8) (m : BitVec 23) :
    binary64Value (packed64 sg e m) =
      some ((-1 : Rat) ^ sg.toNat * (1 + (m.toNat : Rat) / 2 ^ 23) * (2 : Rat) ^ ((e.toNat : Int) - 127)) := by
  obtain ⟨hs, hx, -, -, hf⟩ := packed64_fields sg e m
  have he := e.isLt
  have hfrac : ((m.toNat * 2 ^ 29 : Nat) : Rat) / 2 ^ 52 = (m.toNat : Rat) / 2 ^ 23 := by push_cast; ring
  have hexp : ((e.toNat + 896 : Nat) : Int) - 1023 = (e.toNat : Int) - 127 := by omega
  unfold binary64Value
  simp only [hs, hx, hf]
  rw [if_pos (by omega), hfrac, hexp]

/-- The 9-bit port spells the integer it carries (R14, R82, R92). -/
theorem port9_toInt {n : Int} (hlo : -256 ≤ n) (hhi : n ≤ 255) : (port9 n).toInt = n := by
  rw [port9, BitVec.toInt_ofInt]
  simp only [Int.bmod]
  omega

/-- The decoder drives every port of FDEC as the word calls for. -/
theorem carriesWord_decodeField (f : Payload4) (w : Wires) :
    CarriesWord (decoderOutputs (Wires.decodeField f w)) (assembleWord f.b0 f.b1 f.b2 f.b3) where
  sign := rfl
  expField := rfl
  mantissa := rfl
  expSigned := by
    have he := (expFieldOf (assembleWord f.b0 f.b1 f.b2 f.b3)).isLt
    simp only [decoderOutputs, Wires.decodeField_expSigned, unbiased, bias]
    rw [port9_toInt (by omega) (by omega)]
    rfl
  significand := significandOf_toNat _
  scaleK := by
    have he := (expFieldOf (assembleWord f.b0 f.b1 f.b2 f.b3)).isLt
    simp only [decoderOutputs, Wires.decodeField_scaleK, scaleExponent, unbiased, bias, fractionBits]
    rw [port9_toInt (by omega) (by omega)]
    show _ = ((expFieldOf _).toNat : Int) - 150
    omega
  v := scaledValue_toRat _ _ _
  value64 := packed64_toNat _ _ _

end Sys2Proof.Machine
end

