-- ==== Sys2Proof/Tests/Slice0.lean ====
section
/-! SUPPORT. Tests: the well-formedness smoke test, words written out from the spec's encodings, one step per operation on
the spec's own examples (spec/95_test_vectors.md), and a witness for the hypotheses of every statement. Every expected
value is the spec's. -/

namespace Sys2Proof.Tests

open Sys2Proof.Machine

/-- A state with a buffer and an offset on the ports and nothing else done. -/
def onPorts (bytes : List Byte) (offset : Nat) : State :=
  { State.reset with mem := Memory.ofBytes bytes, offset := offset }

/-- A state whose host makes one invocation with inputs. -/
def calling (op : Operation) (bytes : List Byte) (offset : Option Nat) : State :=
  { State.reset with pending := [⟨op, some ⟨bytes, offset⟩⟩] }

/-- A state with given wires. -/
def withWires (w : Wires) : State := { State.reset with wires := w }

/-- What is read off the next state, if there is one. -/
def seen {α : Type} (o : Host.Outcome State Fault Refusal) (read : State → α) : Option α :=
  match o with
  | .next t => some (read t)
  | .fault _ => none
  | .refused _ => none

/-- The value a response carries, if it carries one. -/
def carriedValue : Option Response → Option Value
  | some (.decoded o) => some o.v
  | some (.uplink (.ok v)) => some v
  | some (.uplink (.err _)) => none
  | none => none

/-- Buffer A of spec/95 section 2.1. -/
def bufferA : List Byte := [0xAA, 0xBB, 0x00, 0x00, 0x80, 0x3F, 0xCC]

/-! ### Well-formedness: every check refuses its ill-formed term -/

theorem test_wf_fetch4_refuses : Instr.wellFormed .fetch4 7 4 = false := by decide
theorem test_wf_decode_refuses : Instr.wellFormed .decode 7 4 = false := by decide
theorem test_wf_uplinkErr_refuses : Instr.wellFormed .uplinkErr 4 0 = false := by decide
theorem test_wf_uplinkOk_refuses : Instr.wellFormed .uplinkOk 3 0 = false := by decide
theorem test_wf_last_offset : Instr.wellFormed .decode 7 3 = true := by decide

/-! ### Decoding: every constructor, and words written out from spec/30 -/

theorem test_decode_stages :
    [Operation.fetch4, .assemble, .xsign, .xexp, .unbias, .xmant, .signif, .signmul, .scale, .pack64].map
        (decodeOp · 7) =
      [.fetch4, .assemble, .xsign, .xexp, .unbias, .xmant, .signif, .signmul, .scale, .pack64] := by decide
theorem test_decode_fdec : decodeOp .decode 0 = .decode := by decide
theorem test_decode_uplink_by_length :
    [0, 1, 2, 3, 4, 5].map (decodeOp .uplink) =
      [.uplinkErr, .uplinkErr, .uplinkErr, .uplinkErr, .uplinkOk, .uplinkOk] := by decide
/-- S4, `[0x3F, 0x80]`: bits 7..0 are the byte at index 0. -/
theorem test_word_S4 : decodeTableWord 16 0x803F = some .uplinkErr ∧ payloadOfWord 16 0x803F = [0x3F, 0x80] := by
  decide
/-- S1: `0 01111111 00000000000000000000000`. -/
theorem test_word_S1 :
    decodeTableWord 32 0b00111111100000000000000000000000 = some .uplinkOk ∧
      payloadOfWord 32 0b00111111100000000000000000000000 = [0x00, 0x00, 0x80, 0x3F] := by decide
/-- S3: sign 1, exponent field 129, mantissa 0x200000. -/
theorem test_word_S3 :
    encodeB32 0b1#1 0b10000001#8 0b01000000000000000000000#23 = 0xC0A00000#32 ∧
      encodePayload4 0xC0A00000 = [0x00, 0x00, 0xA0, 0xC0] := by decide

/-! ### One step per operation -/

/-- spec/95 section 2.1, offset 2. -/
theorem test_fetch4_offset2 :
    seen (exec .fetch4 (onPorts bufferA 2)) (fun t => [t.wires.b0, t.wires.b1, t.wires.b2, t.wires.b3]) =
      some [0x00, 0x00, 0x80, 0x3F] := by decide
/-- spec/95 section 2.1, offset 4: refused. -/
theorem test_fetch4_out_of_contract : seen (exec .fetch4 (onPorts bufferA 4)) (·.offset) = none := by decide
/-- R71: `[0x78, 0x56, 0x34, 0x12]`. -/
theorem test_assemble_order : assembleWord 0x78 0x56 0x34 0x12 = 0x12345678 := by decide
/-- spec/95 section 2.2: bit 31 alone. -/
theorem test_assemble_bit31 : (assembleWord 0x00 0x00 0x00 0x80).toNat = 2147483648 := by decide
/-- spec/95 section 2.3, row `0xC0A00000`. -/
theorem test_xsign_S3 :
    seen (exec .xsign (withWires { State.reset.wires with bits := 0xC0A00000 })) (·.wires.sign) = some 1 := by decide
theorem test_xexp_S3 :
    seen (exec .xexp (withWires { State.reset.wires with bits := 0xC0A00000 })) (·.wires.expField) = some 129 := by
  decide
/-- R82: 0 gives -127 and 255 gives +128. -/
theorem test_unbias_ends :
    seen (exec .unbias (withWires { State.reset.wires with expField := 0 })) (·.wires.expSigned) = some (-127) ∧
      seen (exec .unbias (withWires { State.reset.wires with expField := 255 })) (·.wires.expSigned) = some 128 := by
  decide
/-- R83: bit 23 is no mantissa bit. -/
theorem test_xmant_bit23 :
    seen (exec .xmant (withWires { State.reset.wires with bits := 0x00FFFFFF })) (·.wires.mantissa) =
      some 0x7FFFFF := by decide
theorem test_signif_S3 :
    seen (exec .signif (withWires { State.reset.wires with mantissa := 0x200000 })) (·.wires.significand) =
      some 10485760 := by decide
theorem test_signmul_minus :
    seen (exec .signmul (withWires { State.reset.wires with sign := 1 })) (·.wires.signMul) = some .minus := by decide
/-- spec/95 section 2.4, row of -5. -/
theorem test_scale_S3 :
    seen
        (exec .scale
          (withWires { State.reset.wires with signMul := .minus, significand := 10485760, expSigned := 2 }))
        (fun t => (t.wires.scaleK, t.wires.v)) =
      some (-21, ⟨.minus, 10485760, -21⟩) := by decide
theorem test_pack64_S3 :
    seen (exec .pack64 (withWires { State.reset.wires with sign := 1, expField := 129, mantissa := 0x200000 }))
        (·.wires.value64) =
      some 0xC014000000000000 := by decide
/-- spec/95 section 2.5, `[0x79, 0xE9, 0xF6, 0x42]`, through the host's queue. -/
theorem test_decode_step :
    seen (step (calling .decode [0x79, 0xE9, 0xF6, 0x42] none))
        (fun t => (t.wires.bits, t.wires.v, t.wires.value64)) =
      some (0x42F6E979, ⟨.plus, 16181625, -17⟩, 0x405EDD2F20000000) := by decide
/-- spec/95 section 2.8, offset 3: bit 31 set, exponent field 152. -/
theorem test_decode_offset3 :
    seen (step (calling .decode bufferA (some 3))) (fun t => (t.wires.bits, t.wires.v, t.wires.value64)) =
      some (0xCC3F8000, ⟨.minus, 12550144, 2⟩, 0xC187F00000000000) := by decide
/-- S4, and the empty payload. -/
theorem test_uplinkErr_step :
    seen (step (calling .uplink [0x3F, 0x80] none)) (·.result) = some (some (.err ["Not enough bytes for float"])) ∧
      seen (step (calling .uplink [] none)) (·.result) = some (some (.err ["Not enough bytes for float"])) :=
  ⟨rfl, rfl⟩
/-- spec/95 section 2.9: the all-zero payload succeeds with 2^-127 (C1), not 0. -/
theorem test_uplinkOk_zero :
    seen (step (calling .uplink [0x00, 0x00, 0x00, 0x00] none)) (fun t => (t.result, adapterOutputs t)) =
      some (some (.ok ⟨.plus, 8388608, -150⟩), some ⟨1, 0, 0x3800000000000000⟩) := by decide
/-- R24, R112: UPLINK on kept inputs decodes at 0 and leaves FDEC's offset and outputs as they were. -/
theorem test_uplink_kept_leaves_offset :
    seen (step { onPorts bufferA 2 with presented := true, pending := [⟨.uplink, none⟩] })
        (fun t => (t.offset, t.wires.bits, t.adapterWires.bits)) =
      some (2, 0x00000000, 0x0000BBAA) := by decide
/-- R141: a stage used with new inputs finds its inputs driven; XSIGN of S3, and `value64` beside it. -/
theorem test_xsign_new_inputs :
    seen (step (calling .xsign [0x00, 0x00, 0xA0, 0xC0] none)) (fun t => (t.wires.sign, t.wires.value64)) =
      some (1, 0xC014000000000000) := by decide
/-- R17: the 9-bit ports of S3, `exp_signed` = 2 and `scale_k` = -21. -/
theorem test_ports_S3 :
    seen (step (calling .decode [0x00, 0x00, 0xA0, 0xC0] none))
        (fun t => ((decoderOutputs t.wires).expSigned, (decoderOutputs t.wires).scaleK)) =
      some (0b000000010, 0b111101011) := by decide
/-- S5: the fifth byte is ignored. -/
theorem test_uplinkOk_S5 :
    seen (step (calling .uplink [0x00, 0x00, 0x80, 0x3F, 0xFF] none)) (·.result) =
      some (some (.ok ⟨.plus, 8388608, -23⟩)) := by decide
/-- R61: the success object of S5. -/
theorem test_hostObject_S5 :
    Result.hostObject (.ok ⟨.plus, 8388608, -23⟩) = [("data", .mapping [("rolling_avg", ⟨.plus, 8388608, -23⟩)])] :=
  rfl
/-- spec/95 section 3, program 3, invocations 1 and 5: the error leaves no trace. -/
theorem test_program3 :
    (results [.handleUplink [0x3F, 0x80], .handleUplink [0x00, 0x00, 0x80, 0xBF, 0x01, 0x02]] State.reset).map
        carriedValue =
      [none, some ⟨.minus, 8388608, -23⟩] := by decide
/-- The payload of S1, placed as a word, is the first invocation after reset. -/
theorem test_placed_word :
    seen (step (State.reset.withFetchWord 32 0x3F800000)) adapterOutputs = some (some ⟨1, 0, 0x3FF0000000000000⟩) := by
  decide

/-! ### Witnesses for the hypotheses of the statements -/

/-- EveryStepKeepsInvariant, StepConsumesOneInvocation: a Result stands on the ports and a further step runs. -/
theorem witness_step_from_result :
    ∃ s t u : State, step s = .next t ∧ t.result ≠ none ∧ Inv t ∧ step t = .next u := by
  refine ⟨{ State.reset with pending := [⟨.uplink, some ⟨[0x00, 0x00, 0x80, 0x3F], none⟩⟩, ⟨.xsign, none⟩] }, _, _,
    step_uplink_of_le rfl (by decide), by simp, reportValue_inv (putInputs_inv _ _ _) rfl, rfl⟩

/-- EveryStepKeepsInvariant: the invariant with a failure Result. -/
theorem witness_inv_failure :
    ∃ s t : State, step s = .next t ∧ Inv t ∧ t.result = some (.err ["Not enough bytes for float"]) :=
  ⟨calling .uplink [0x3F] none, _, rfl, reportError_inv (putInputs_inv _ _ _) (by decide), rfl⟩

/-- StepPerformsSelectedRow, EveryInvocationCompletes (first clause, UPLINK on the empty payload and DECODE at the last
legal offset; second clause, DECODE one past it). -/
theorem witness_pending :
    (calling .uplink [] none).pending = [⟨.uplink, some ⟨[], none⟩⟩] ∧
      ¬ (State.present (calling .decode bufferA (some 3)) ⟨.decode, some ⟨bufferA, some 3⟩⟩).mem.len <
        (State.present (calling .decode bufferA (some 3)) ⟨.decode, some ⟨bufferA, some 3⟩⟩).offset + 4 ∧
      (State.present (calling .decode bufferA (some 4)) ⟨.decode, some ⟨bufferA, some 4⟩⟩).mem.len <
        (State.present (calling .decode bufferA (some 4)) ⟨.decode, some ⟨bufferA, some 4⟩⟩).offset + 4 := by
  decide

/-- PlacedWordRunsItsRow: a word of either row. -/
theorem witness_placed_word :
    decodeTableWord 24 0xFFFFFF = some .uplinkErr ∧ decodeTableWord 32 0xFFFFFFFF = some .uplinkOk := by decide

/-- OperationsKeepInputs, OnlyUplinkWritesResult: a stage and DECODE have next states. -/
theorem witness_next :
    (∃ t, exec .assemble State.reset = .next t) ∧ ∃ t, exec .decode (onPorts bufferA 3) = .next t :=
  ⟨⟨_, rfl⟩, ⟨_, rfl⟩⟩

/-- PresentingDrivesPorts, KeptInputsStay: inputs never presented, and inputs presented and kept, by either block. -/
theorem witness_kept :
    State.reset.presented = false ∧
      (∃ t, step { onPorts bufferA 3 with presented := true, pending := [⟨.uplink, none⟩] } = .next t) ∧
      ∃ t, step { onPorts bufferA 3 with presented := true, pending := [⟨.decode, none⟩] } = .next t :=
  ⟨rfl, ⟨_, rfl⟩, ⟨_, rfl⟩⟩

/-- FdecOutputsFollowInputs, SingleCallResponses: the word of four bytes, at the last legal offset and at an omitted one. -/
theorem witness_word_at_offset :
    (bufferA.drop ((some 3).getD 0)).take 4 = encodePayload4 0xCC3F8000 ∧
      (([0x00, 0x00, 0xA0, 0xC0] : List Byte).drop ((none : Option Nat).getD 0)).take 4 = encodePayload4 0xC0A00000 ∧
      (calling .xsign bufferA (some 3)).pending = [⟨.xsign, some ⟨bufferA, some 3⟩⟩] := by decide

/-- CanonicalBuffersAgree: a canonical buffer with a zero byte. -/
theorem witness_canonical : (Memory.ofBytes bufferA).wf = true ∧ (Memory.ofBytes bufferA).cells.length = 5 := by
  decide

/-- EncodedRowIsSelected: both rows of UPLINK at the boundary, DECODE at its last offset, a stage. -/
theorem witness_wellFormed :
    Instr.wellFormed .uplinkErr 3 0 = true ∧ Instr.wellFormed .uplinkOk 4 0 = true ∧
      Instr.wellFormed .fetch4 4 0 = true ∧ Instr.wellFormed .decode 7 3 = true ∧
      Instr.wellFormed .scale 0 0 = true := by decide

/-- EncodedFieldDecodes: the field of -5.0 behind two bytes and before one. -/
theorem witness_encoded_field :
    (onPorts ([0xAA, 0xBB] ++ encodePayload4 (encodeB32 1 129 0x200000) ++ [0xCC]) 2).mem =
        Memory.ofBytes ([0xAA, 0xBB] ++ encodePayload4 (encodeB32 1 129 0x200000) ++ [0xCC]) ∧
      (onPorts ([0xAA, 0xBB] ++ encodePayload4 (encodeB32 1 129 0x200000) ++ [0xCC]) 2).offset =
        [(0xAA : Byte), 0xBB].length := by decide

/-- FieldIsLittleEndian, Fetch4ReadsFourBytes, PortCarriesExactValue, ValueRangeAndOrder, OutOfContractIsRefused: the last
legal offset, the first illegal one, and the shortest legal buffer. -/
theorem witness_in_contract :
    (onPorts bufferA 3).offset + 4 ≤ (onPorts bufferA 3).mem.len ∧
      (onPorts bufferA 4).mem.len < (onPorts bufferA 4).offset + 4 ∧
      (onPorts [0x00, 0x00, 0x80, 0xBF] 0).offset + 4 ≤ (onPorts [0x00, 0x00, 0x80, 0xBF] 0).mem.len := by decide

/-- XsignTakesBit31, XexpTakesBits30To23: a word that is a concatenation of bytes. -/
theorem witness_word_of_bytes : (0xC0A00000 : Word) = 0xC0#8 ++ 0xA0#8 ++ 0x00#8 ++ 0x00#8 := by decide

/-- ScaleMultiplies: significands and exponents at both ends of their ranges. -/
theorem witness_scale_operands :
    (8388608#24).toNat = 2 ^ 23 + (0#23).toNat ∧ (16777215#24).toNat = 2 ^ 23 + (0x7FFFFF#23).toNat ∧
      State.reset.wires.expSigned = ((0#8).toNat : Int) - 127 ∧ (128 : Int) = ((255#8).toNat : Int) - 127 := by
  decide

/-- DecodeClosedForm, ExtremeExponentsUseFormula, NormalWordsMeetIeee754: fields of every class, and the four words named. -/
theorem witness_field_words :
    (onPorts [0x00, 0x00, 0x80, 0x3F] 0).mem.fieldWord 0 = 0x3F800000 ∧ classOf 0x3F800000 = .normal ∧
      (onPorts [0x00, 0x00, 0x00, 0x00] 0).mem.fieldWord 0 = 0x00000000 ∧ classOf 0x00000000 = .expZero ∧
      (onPorts [0x00, 0x00, 0x00, 0x80] 0).mem.fieldWord 0 = 0x80000000 ∧
      (onPorts [0x00, 0x00, 0x80, 0x7F] 0).mem.fieldWord 0 = 0x7F800000 ∧ classOf 0x7F800000 = .expOnes ∧
      (onPorts [0x00, 0x00, 0xC0, 0x7F] 0).mem.fieldWord 0 = 0x7FC00000 := by decide

/-- DecodeDependsOnFourBytes, DistinctFieldsDistinctValues: S1 alone, and S1 at index 2 of buffer A. -/
theorem witness_same_field :
    (∀ i, i < 4 → (onPorts bufferA 2).mem.read (2 + i) = (onPorts [0x00, 0x00, 0x80, 0x3F] 0).mem.read (0 + i)) ∧
      ∃ t t', exec .decode (onPorts bufferA 2) = .next t ∧
        exec .decode (onPorts [0x00, 0x00, 0x80, 0x3F] 0) = .next t' ∧ t.wires.v.toRat = t'.wires.v.toRat :=
  ⟨by decide, _, _, rfl, rfl, rfl⟩

/-- NormalValuesRoundTrip: the smallest and the largest NORMAL word have a value, and a buffer holds the second. -/
theorem witness_round_trip :
    classOf 0x00800000 = .normal ∧ classOf 0x7F7FFFFF = .normal ∧ (∃ q, ieee32Value 0x7F7FFFFF = some q) ∧
      (onPorts (encodePayload4 0x7F7FFFFF ++ [0xFF]) 0).mem = Memory.ofBytes (encodePayload4 0x7F7FFFFF ++ [0xFF]) :=
  ⟨by decide, by decide, ⟨_, rfl⟩, rfl⟩

/-- ShortPayloadFails, LongPayloadSucceeds, UnselectedRowIsRefused: lengths 3 and 4. -/
theorem witness_lengths :
    (onPorts [0xFF, 0xFF, 0xFF] 0).mem.len < 4 ∧ 4 ≤ (onPorts [0xFF, 0xFF, 0xFF, 0xFF] 0).mem.len := by decide

/-- UplinkIsTotal, TrailingBytesIgnored, HostSeesResultObject: two payloads that agree in four bytes, the first of them
the bytes of a word; and a short one. -/
theorem witness_uplink_pending :
    (calling .uplink [0x00, 0x00, 0x80, 0x3F] none).pending = [⟨.uplink, some ⟨[0x00, 0x00, 0x80, 0x3F], none⟩⟩] ∧
      ([0x00, 0x00, 0x80, 0x3F] : List Byte).take 4 = ([0x00, 0x00, 0x80, 0x3F, 0xFF] : List Byte).take 4 ∧
      ([0x00, 0x00, 0x80, 0x3F] : List Byte).take 4 = encodePayload4 0x3F800000 ∧
      (calling .uplink [0x3F] none).pending = [⟨.uplink, some ⟨[0x3F], none⟩⟩] := by decide

/-- SingleCallResponses: a decode at the first offset outside the contract, one at the last inside it, one at offset 0,
payloads of 4 and of 3 bytes. -/
theorem witness_calls :
    bufferA.length < (some 4).getD 0 + 4 ∧ (some 3).getD 0 + 4 ≤ bufferA.length ∧
      (none : Option Nat).getD 0 + 4 ≤ bufferA.length ∧ (none : Option Nat).getD 0 = 0 ∧
      4 ≤ ([0x00, 0x00, 0x80, 0x3F] : List Byte).length ∧ ([0x3F, 0x80, 0x00] : List Byte).length < 4 := by decide

end Sys2Proof.Tests
end

section
/-! PROOFS. The frame of `exec`: what the host put on the ports, and its queue, outlive every operation (R24). -/

namespace Sys2Proof.Machine

/-- Whatever row is performed, FDEC's wires are driven or one form of the Result is produced, and each of these updates
leaves the input ports and the queue alone (R24, R36). The buffer is the same data, not only the same bytes. -/
theorem exec_keeps_inputs {i : Instr} {s t : State} (h : exec i s = .next t) :
    t.mem = s.mem ∧ t.offset = s.offset ∧ t.pending = s.pending := by
  obtain ⟨-, -, hdrive⟩ | ⟨-, -, herr⟩ | ⟨-, -, f, -, hok⟩ := exec_next_cases h
  · rw [hdrive]
    simp
  · rw [herr]
    simp
  · rw [hok]
    simp

/-- Settles O9: the buffer is kept as data, so every reading of it is kept with it. -/
theorem operationsKeepInputs : Obligations.OperationsKeepInputs := by
  intro i s t h
  obtain ⟨hmem, hoffset, hpending⟩ := exec_keeps_inputs h
  rw [hmem]
  exact ⟨fun _ => rfl, rfl, rfl, hoffset, hpending⟩

end Sys2Proof.Machine
end

section
/-! PROOFS. The byte order (R32): a slice of the assembled word that stays inside one byte's lane is that slice of the
byte; every field is such a slice, or slices of neighbouring bytes side by side. -/

namespace Sys2Proof.Machine

section slices
variable (b0 b1 b2 b3 : Byte) (i n : Nat)

theorem slice_lane0_assembleWord (h : i + n ≤ 8) :
    (assembleWord b0 b1 b2 b3).extractLsb' i n = b0.extractLsb' i n := by
  rw [assembleWord_eq_append, BitVec.extractLsb'_append_eq_of_add_le h]

theorem slice_lane1_assembleWord (h : i + n ≤ 8) :
    (assembleWord b0 b1 b2 b3).extractLsb' (8 + i) n = b1.extractLsb' i n := by
  rw [assembleWord_eq_append, BitVec.extractLsb'_append_eq_of_le (Nat.le_add_right 8 i), Nat.add_sub_cancel_left,
    BitVec.extractLsb'_append_eq_of_add_le h]

theorem slice_lane2_assembleWord (h : i + n ≤ 8) :
    (assembleWord b0 b1 b2 b3).extractLsb' (16 + i) n = b2.extractLsb' i n := by
  rw [assembleWord_eq_append, BitVec.append_assoc, BitVec.extractLsb'_cast,
    BitVec.extractLsb'_append_eq_of_le (Nat.le_add_right 16 i), Nat.add_sub_cancel_left,
    BitVec.extractLsb'_append_eq_of_add_le h]

/-- The highest lane needs no bound: above it both sides are zeros. -/
theorem slice_lane3_assembleWord :
    (assembleWord b0 b1 b2 b3).extractLsb' (24 + i) n = b3.extractLsb' i n := by
  rw [assembleWord_eq_append, BitVec.append_assoc, BitVec.extractLsb'_cast,
    BitVec.extractLsb'_append_eq_of_le (show 16 ≤ 24 + i by omega),
    BitVec.extractLsb'_append_eq_of_le (show 8 ≤ 24 + i - 16 by omega), show 24 + i - 16 - 8 = i by omega]

/-- The four byte lanes of the word: byte `k` fills bits `8k+7..8k`. -/
theorem byteLanes_assembleWord :
    (assembleWord b0 b1 b2 b3).extractLsb' 0 8 = b0 ∧ (assembleWord b0 b1 b2 b3).extractLsb' 8 8 = b1 ∧
      (assembleWord b0 b1 b2 b3).extractLsb' 16 8 = b2 ∧ (assembleWord b0 b1 b2 b3).extractLsb' 24 8 = b3 :=
  ⟨(slice_lane0_assembleWord b0 b1 b2 b3 0 8 (Nat.le_refl 8)).trans BitVec.extractLsb'_eq_self,
    (slice_lane1_assembleWord b0 b1 b2 b3 0 8 (Nat.le_refl 8)).trans BitVec.extractLsb'_eq_self,
    (slice_lane2_assembleWord b0 b1 b2 b3 0 8 (Nat.le_refl 8)).trans BitVec.extractLsb'_eq_self,
    (slice_lane3_assembleWord b0 b1 b2 b3 0 8).trans BitVec.extractLsb'_eq_self⟩

theorem signOf_assembleWord : signOf (assembleWord b0 b1 b2 b3) = b3.extractLsb' 7 1 :=
  slice_lane3_assembleWord b0 b1 b2 b3 7 1

/-- The exponent field straddles the two highest lanes: bits 30..24 and bit 23. -/
theorem expFieldOf_assembleWord :
    expFieldOf (assembleWord b0 b1 b2 b3) = b3.extractLsb' 0 7 ++ b2.extractLsb' 7 1 := by
  have hhigh : (assembleWord b0 b1 b2 b3).extractLsb' 24 7 = b3.extractLsb' 0 7 :=
    slice_lane3_assembleWord b0 b1 b2 b3 0 7
  have hlow : (assembleWord b0 b1 b2 b3).extractLsb' 23 1 = b2.extractLsb' 7 1 :=
    slice_lane2_assembleWord b0 b1 b2 b3 7 1 (Nat.le_refl 8)
  rw [← hhigh, ← hlow]
  exact (BitVec.extractLsb'_append_extractLsb'_eq_extractLsb' (start₁ := 23) (len₁ := 1) (len₂ := 7) rfl).symm

/-- The mantissa is the rest of the third lane, bits 22..16, above the two lowest lanes. -/
theorem mantissaOf_assembleWord :
    mantissaOf (assembleWord b0 b1 b2 b3) = b2.extractLsb' 0 7 ++ b1 ++ b0 := by
  have hhigh : (assembleWord b0 b1 b2 b3).extractLsb' 16 7 = b2.extractLsb' 0 7 :=
    slice_lane2_assembleWord b0 b1 b2 b3 0 7 (by decide)
  obtain ⟨hlane0, hlane1, -, -⟩ := byteLanes_assembleWord b0 b1 b2 b3
  calc mantissaOf (assembleWord b0 b1 b2 b3)
    _ = (assembleWord b0 b1 b2 b3).extractLsb' 8 15 ++ (assembleWord b0 b1 b2 b3).extractLsb' 0 8 :=
      (BitVec.extractLsb'_append_extractLsb'_eq_extractLsb' (start₁ := 0) (len₁ := 8) (len₂ := 15) rfl).symm
    _ = (assembleWord b0 b1 b2 b3).extractLsb' 16 7 ++ (assembleWord b0 b1 b2 b3).extractLsb' 8 8 ++
          (assembleWord b0 b1 b2 b3).extractLsb' 0 8 :=
      congrArg (· ++ _)
        (BitVec.extractLsb'_append_extractLsb'_eq_extractLsb' (start₁ := 8) (len₁ := 8) (len₂ := 7) rfl).symm
    _ = b2.extractLsb' 0 7 ++ b1 ++ b0 := by rw [hhigh, hlane1, hlane0]

end slices

/-- Settles O15: inside the contract DECODE assembles the four bytes at the offset, and each field it drives is where
the lanes of that word put it. -/
theorem fieldIsLittleEndian : Obligations.FieldIsLittleEndian := by
  intro s hle
  obtain ⟨hlane0, hlane1, hlane2, hlane3⟩ := byteLanes_assembleWord (s.mem.byteAt s.offset)
    (s.mem.byteAt (s.offset + 1)) (s.mem.byteAt (s.offset + 2)) (s.mem.byteAt (s.offset + 3))
  exact ⟨_, exec_decode_of_le hle, hlane0, hlane1, hlane2, hlane3, signOf_assembleWord _ _ _ _,
    expFieldOf_assembleWord _ _ _ _, mantissaOf_assembleWord _ _ _ _⟩

end Sys2Proof.Machine
end

section
/-! PROOFS. A field that holds the bytes of a word decodes to that word (R50, R71), and what the host is shown of a step
of UPLINK (R61). -/

namespace Sys2Proof.Machine

/-- Assembling the bytes of a word, least significant first, gives the word: the lanes of R50 tile it. -/
theorem assembleWord_lanes (w : Word) :
    assembleWord (w.extractLsb' 0 8) (w.extractLsb' 8 8) (w.extractLsb' 16 8) (w.extractLsb' 24 8) = w := by
  have hw := w.isLt
  apply BitVec.eq_of_toNat_eq
  rw [assembleWord_toNat]
  simp only [BitVec.extractLsb'_toNat, Nat.shiftRight_eq_div_pow]
  omega

/-- A presented buffer that holds a run of bytes at an index reads back that run there. -/
theorem Memory.byteAt_ofBytes_run {bytes run : List Byte} {a n i : Nat} (h : (bytes.drop a).take n = run)
    (hi : i < n) : (Memory.ofBytes bytes).byteAt (a + i) = run.getD i Memory.unlisted := by
  rw [Memory.byteAt_ofBytes, ← h]
  simp [hi]

/-- The field that holds the bytes of a word, anywhere in a presented buffer, is assembled to that word. -/
theorem assembleWord_ofBytes_field {bytes : List Byte} {a : Nat} {w : Word}
    (h : (bytes.drop a).take 4 = encodePayload4 w) :
    assembleWord ((Memory.ofBytes bytes).byteAt a) ((Memory.ofBytes bytes).byteAt (a + 1))
      ((Memory.ofBytes bytes).byteAt (a + 2)) ((Memory.ofBytes bytes).byteAt (a + 3)) = w := by
  have hbyte (i : Nat) (hi : i < 4) := Memory.byteAt_ofBytes_run h hi
  rw [hbyte 1 (by decide), hbyte 2 (by decide), hbyte 3 (by decide),
    show (Memory.ofBytes bytes).byteAt a = _ from hbyte 0 (by decide)]
  exact assembleWord_lanes w

/-- Settles O43: a short payload is answered by the failure form with the one message; a longer one by the success form
with the value of the word that its first four bytes assemble to. -/
theorem hostSeesResultObject : Obligations.HostSeesResultObject := by
  intro s bytes off rest hpending
  obtain hlt | hle := Nat.lt_or_ge bytes.length 4
  · exact ⟨_, _, step_uplink_of_lt hpending hlt, State.reportError_result _ _, fun _ => rfl,
      fun hle => absurd hlt (Nat.not_lt.mpr hle), rfl⟩
  · refine ⟨_, _, step_uplink_of_le hpending hle, State.reportValue_result _,
      fun hlt => absurd hlt (Nat.not_lt.mpr hle), fun _ => ⟨_, rfl, fun w hw => ?_⟩, rfl⟩
    have hword := assembleWord_ofBytes_field (a := 0) hw
    rw [State.driveAdapter_adapterWires, Wires.decodeField_v, hword]
    exact scaledValue_toRat _ _ _

end Sys2Proof.Machine
end

section
/-! PROOFS. The byte assembler: the bytes that FETCH4 reads (R70), and the word that ASSEMBLE makes of four bytes (R71). -/

namespace Sys2Proof.Machine

/-- An index below `len` is read as the byte there. -/
theorem Memory.read_of_lt {m : Memory} {a : Nat} (h : a < m.len) : m.read a = some (m.byteAt a) := if_pos h

/-- `MemRead(a, 4)` inside the contract: the bytes at `a + i`, the sum not wrapped around (R31, R70). -/
theorem Memory.memRead_four_of_le {m : Memory} {a : Nat} (h : a + 4 ≤ m.len) :
    m.memRead a 4 = some [m.byteAt a, m.byteAt (a + 1), m.byteAt (a + 2), m.byteAt (a + 3)] := if_pos h

/-- Settles O16: FETCH4 drives the field at the offset onto its four wires, and both reads of the buffer give that
field inside the contract. -/
theorem fetch4ReadsFourBytes : Obligations.Fetch4ReadsFourBytes := by
  intro s hle
  have hread (i : Nat) (hi : i < 4) : s.mem.read (s.offset + i) = some (s.mem.byteAt (s.offset + i)) :=
    Memory.read_of_lt (by omega)
  exact ⟨_, exec_fetch4_of_le hle, Memory.memRead_four_of_le hle, hread 0 (by decide), hread 1 (by decide),
    hread 2 (by decide), hread 3 (by decide), rfl⟩

/-- ASSEMBLE takes every state: it has no precondition (R54). -/
theorem exec_assemble (s : State) : exec .assemble s = .next (s.drive (Wires.assemble s.wires)) := rfl

/-- Bit 7 of the highest byte is the word's bit 31: the three bytes below it add up to less than `2^24` (R71). -/
theorem getLsbD_seven_iff_le_assembleWord (b0 b1 b2 b3 : Byte) :
    b3.getLsbD 7 = true ↔ 2 ^ 31 ≤ (assembleWord b0 b1 b2 b3).toNat := by
  have h0 := b0.isLt; have h1 := b1.isLt; have h2 := b2.isLt
  have hbit : b3.getLsbD 7 = true ↔ 128 ≤ b3.toNat := by
    rw [← show b3.msb = b3.getLsbD 7 from BitVec.msb_eq_getLsbD_last b3, BitVec.msb_eq_decide, decide_eq_true_iff]
  rw [hbit, assembleWord_toNat]
  omega

/-- The four byte lanes of a word, as the field that `encodePayload4` lists (R50). -/
def laneBytes (w : Word) : Payload4 :=
  { b0 := w.extractLsb' 0 8, b1 := w.extractLsb' 8 8, b2 := w.extractLsb' 16 8, b3 := w.extractLsb' 24 8 }

/-- Taking the lanes undoes ASSEMBLE. -/
theorem laneBytes_assembleWord (f : Payload4) : laneBytes (assembleWord f.b0 f.b1 f.b2 f.b3) = f := by
  obtain ⟨h0, h1, h2, h3⟩ := byteLanes_assembleWord f.b0 f.b1 f.b2 f.b3
  simp only [laneBytes, h0, h1, h2, h3]

/-- ASSEMBLE has an inverse on both sides, the lanes of the word (R71). -/
theorem assembleWord_bijective : Function.Bijective fun f : Payload4 => assembleWord f.b0 f.b1 f.b2 f.b3 :=
  Function.bijective_iff_has_inverse.mpr ⟨laneBytes, laneBytes_assembleWord, assembleWord_lanes⟩

/-- Settles O18: the word ASSEMBLE drives is the OR of the shifted bytes by definition; its other readings are the laws of
the assembled word. -/
theorem assembleBuildsWord : Obligations.AssembleBuildsWord :=
  ⟨fun s => ⟨_, exec_assemble s, rfl, assembleWord_eq_append _ _ _ _, assembleWord_toNat _ _ _ _,
    getLsbD_seven_iff_le_assembleWord _ _ _ _, rfl⟩, assembleWord_bijective⟩

end Sys2Proof.Machine
end

section
/-! PROOFS. The bit-field extractor (R80 to R85): each stage drives one wire, a slice of the word or a function of such a
slice, and the three slices of the word are disjoint and leave no bit out. -/

namespace Sys2Proof.Machine

/-! ### No stage of the extractor has a precondition (R54) -/

section stages
variable (s : State)

theorem exec_xsign : exec .xsign s = .next (s.drive (Wires.xsign s.wires)) := rfl
theorem exec_xexp : exec .xexp s = .next (s.drive (Wires.xexp s.wires)) := rfl
theorem exec_unbias : exec .unbias s = .next (s.drive (Wires.unbias s.wires)) := rfl
theorem exec_xmant : exec .xmant s = .next (s.drive (Wires.xmant s.wires)) := rfl
theorem exec_signif : exec .signif s = .next (s.drive (Wires.signif s.wires)) := rfl

end stages

/-! ### The three fields together (R85) -/

/-- Weighted by their positions, the fields of a word add up to it. -/
theorem toNat_eq_sum_fields (w : Word) :
    w.toNat = (signOf w).toNat * 2 ^ 31 + (expFieldOf w).toNat * 2 ^ 23 + (mantissaOf w).toNat := by
  rw [← encodeB32_toNat, encodeB32_fields]

/-- Extraction has an inverse on both sides, the format B32 (R51). -/
theorem extractFields_bijective : Function.Bijective fun w : Word => (signOf w, expFieldOf w, mantissaOf w) := by
  refine Function.bijective_iff_has_inverse.mpr
    ⟨fun fields => encodeB32 fields.1 fields.2.1 fields.2.2, encodeB32_fields, fun ⟨sg, e, m⟩ => ?_⟩
  simp only [signOf_encodeB32, expFieldOf_encodeB32, mantissaOf_encodeB32]

/-- Settles O24: each of the three stages reads `bits`, which none of them drives, and drives a wire of its own, so every
order ends in the state that has all three driven. -/
theorem fieldsPartitionWord : Obligations.FieldsPartitionWord := by
  refine ⟨fun s => ⟨s.drive (Wires.xmant (Wires.xexp (Wires.xsign s.wires))), ?_, toNat_eq_sum_fields _, rfl⟩,
    extractFields_bijective⟩
  simp only [List.forall_mem_cons]
  exact ⟨rfl, rfl, rfl, rfl, rfl, rfl, List.forall_mem_nil _⟩

/-! ### The sign (R80) -/

theorem signOf_eq_one_iff (w : Word) : signOf w = 1#1 ↔ 0x80000000 ≤ w.toNat := by
  have hw := w.isLt
  rw [← BitVec.toNat_inj, signOf_toNat, BitVec.toNat_ofNat]
  omega

/-- The sign bit of four bytes side by side is the highest bit of the highest byte. -/
theorem signOf_append_eq_one_iff (b0 b1 b2 b3 : Byte) :
    signOf (b3 ++ b2 ++ b1 ++ b0) = 1#1 ↔ b3.getLsbD 7 = true := by
  rw [← assembleWord_eq_append, signOf_eq_one_iff]
  exact (getLsbD_seven_iff_le_assembleWord b0 b1 b2 b3).symm

/-- Settles O19: what XSIGN drives is bit 31, as a number, as a threshold of the word, and as a bit of the highest byte. -/
theorem xsignTakesBit31 : Obligations.XsignTakesBit31 := by
  refine fun s => ⟨_, exec_xsign s, signOf_toNat _, signOf_eq_one_iff _, fun b0 b1 b2 b3 hbits => ?_, rfl⟩
  rw [← signOf_append_eq_one_iff b0 b1 b2 b3, ← hbits]
  rfl

/-! ### The exponent field (R81, R82) -/

/-- The exponent field of four bytes side by side: seven bits of the highest byte above one bit of the next. -/
theorem expFieldOf_append_toNat (b0 b1 b2 b3 : Byte) :
    (expFieldOf (b3 ++ b2 ++ b1 ++ b0)).toNat = 2 * (b3.toNat % 128) + b2.toNat / 128 := by
  have h0 := b0.isLt; have h1 := b1.isLt; have h2 := b2.isLt
  rw [expFieldOf_toNat, append_bytes_toNat]
  omega

/-- Settles O20: what XEXP drives is the field as a number, and by bytes where the word is four bytes side by side. -/
theorem xexpTakesBits30To23 : Obligations.XexpTakesBits30To23 := by
  refine fun s => ⟨_, exec_xexp s, expFieldOf_toNat _, fun b0 b1 b2 b3 hbits => ?_, rfl⟩
  rw [← expFieldOf_append_toNat b0 b1 b2 b3, ← hbits]
  rfl

theorem unbiased_bounds (e : BitVec 8) : -127 ≤ unbiased e ∧ unbiased e ≤ 128 := by
  have he := e.isLt
  unfold unbiased bias
  omega

/-- On the 9-bit port the exact difference and the difference modulo `2^9` are one (R82). -/
theorem port9_unbiased (e : BitVec 8) : port9 (unbiased e) = e.setWidth 9 - 127#9 := by
  have he := e.isLt
  apply BitVec.eq_of_toNat_eq
  rw [port9, unbiased, bias, BitVec.toNat_ofInt, BitVec.toNat_sub, BitVec.toNat_setWidth, BitVec.toNat_ofNat]
  omega

/-- Settles O21: the exact difference lies in the range that the 9-bit port spells. -/
theorem unbiasSubtracts127 : Obligations.UnbiasSubtracts127 := by
  intro s
  obtain ⟨hlo, hhi⟩ := unbiased_bounds s.wires.expField
  have hport : (port9 (unbiased s.wires.expField)).toInt = unbiased s.wires.expField :=
    port9_toInt (by omega) (by omega)
  exact ⟨_, exec_unbias s, rfl, hlo, hhi, port9_unbiased _, hport, rfl⟩

/-! ### The mantissa and the significand (R83, R84) -/

/-- Masking with 23 ones is the remainder modulo `2^23`. -/
theorem mantissaOf_setWidth (w : Word) : (mantissaOf w).setWidth 32 = w &&& 0x7FFFFF#32 := by
  apply BitVec.eq_of_toNat_eq
  rw [BitVec.toNat_and, BitVec.toNat_setWidth, mantissaOf_toNat]
  have hmask : w.toNat &&& 0x7FFFFF = w.toNat % 2 ^ 23 := Nat.and_two_pow_sub_one_eq_mod w.toNat 23
  rw [show (0x7FFFFF#32).toNat = 0x7FFFFF from rfl, hmask]
  omega

/-- Settles O22: what XMANT drives is the word's remainder modulo `2^23`, which is the word masked. -/
theorem xmantTakesBits22To0 : Obligations.XmantTakesBits22To0 :=
  fun s => ⟨_, exec_xmant s, mantissaOf_toNat _, mantissaOf_setWidth _, rfl⟩

/-- The implicit bit stands directly above the mantissa, so OR with it is concatenation (R84). -/
theorem significandOf_eq_append (m : BitVec 23) : significandOf m = 1#1 ++ m := by
  apply BitVec.eq_of_toNat_eq
  rw [significandOf_toNat, BitVec.toNat_append, ← Nat.shiftLeft_add_eq_or_of_lt m.isLt]
  rfl

theorem significandOf_getLsbD_23 (m : BitVec 23) : (significandOf m).getLsbD 23 = true := by
  rw [significandOf_eq_append, BitVec.getLsbD_append]
  rfl

theorem significandOf_bounds (m : BitVec 23) :
    8388608 ≤ (significandOf m).toNat ∧ (significandOf m).toNat ≤ 16777215 := by
  have hm := m.isLt
  rw [significandOf_toNat]
  omega

/-- Settles O23: what SIGNIF drives is a function of the mantissa alone, so no exponent field has a say in it. -/
theorem signifSetsBit23 : Obligations.SignifSetsBit23 := by
  intro s
  obtain ⟨hlo, hhi⟩ := significandOf_bounds s.wires.mantissa
  exact ⟨_, exec_signif s, significandOf_eq_append _, significandOf_toNat _, hlo, hhi, significandOf_getLsbD_23 _, rfl⟩

end Sys2Proof.Machine
end

section
/-! PROOFS. The floating-point scaler (R90 to R94, R99): SIGNMUL and SCALE in every state, and the decoded value as a
function of the word: its sign is the word's bit 31, and its magnitude grows strictly with the word's other 31 bits. -/

namespace Sys2Proof.Machine

/-! ### The stages SIGNMUL and SCALE (R90 to R92) -/

section scalerStages
variable (s : State)

theorem exec_signmul : exec .signmul s = .next (s.drive (Wires.signmul s.wires)) := rfl
theorem exec_scale : exec .scale s = .next (s.drive (Wires.scale s.wires)) := rfl

end scalerStages

theorem signMulOf_toInt (b : BitVec 1) : (signMulOf b).toInt = if b = 1#1 then -1 else 1 :=
  apply_ite SignMul.toInt _ _ _

/-- Settles O25: the multiplier SIGNMUL drives is -1 for the one value of `sign`, +1 for the other. -/
theorem signmulMapsSign : Obligations.SignmulMapsSign :=
  fun s => ⟨_, exec_signmul s, signMulOf_toInt _, rfl⟩

theorem scaleExponent_unbiased (e : BitVec 8) : scaleExponent (unbiased e) = (e.toNat : Int) - 150 := by
  unfold scaleExponent unbiased bias fractionBits
  omega

/-- A value scaled from a significand with the implicit bit, in the fraction form: the binary point 23 places down. -/
theorem scaledValue_fraction {n : BitVec 24} {m : BitVec 23} (h : n.toNat = 2 ^ 23 + m.toNat)
    (mul : SignMul) (x : Int) :
    (scaledValue mul n x).toRat = (mul.toInt : Rat) * (1 + (m.toNat : Rat) / 2 ^ 23) * (2 : Rat) ^ x := by
  have hn : (n.toNat : Rat) = 2 ^ 23 + (m.toNat : Rat) := by rw [h]; push_cast; rfl
  calc (scaledValue mul n x).toRat
    _ = (mul.toInt : Rat) * (n.toNat : Rat) * (2 : Rat) ^ (x - 23) := rfl
    _ = (mul.toInt : Rat) * (1 + (m.toNat : Rat) / 2 ^ 23) * (2 : Rat) ^ x := by
      rw [hn, mul_assoc, significand_fraction, mul_assoc]

/-- Settles O26: the integer form is what SCALE drives, the fraction form moves the binary point, and for an exponent
field `scale_k` stays in the range that its 9-bit port spells. -/
theorem scaleMultiplies : Obligations.ScaleMultiplies := by
  refine fun s => ⟨_, exec_scale s, rfl, rfl, fun m hm => scaledValue_fraction hm _ _, fun e he => ?_, rfl⟩
  have hscale : scaleExponent s.wires.expSigned = (e.toNat : Int) - 150 := by
    rw [he]
    exact scaleExponent_unbiased e
  have hlt := e.isLt
  exact ⟨hscale, show -150 ≤ scaleExponent _ by omega, show scaleExponent _ ≤ 105 by omega,
    port9_toInt (show -256 ≤ scaleExponent _ by omega) (show scaleExponent _ ≤ 255 by omega)⟩

/-! ### The magnitudes, counted upwards (R94) -/

/-- The magnitude that `bits[30:0]`, as a number, stands for: the implicit bit and the 23 mantissa bits, scaled by the
power of two of the exponent field above them (R103). -/
def magnitude (n : Nat) : Rat :=
  (2 ^ 23 + ((n % 2 ^ 23 : Nat) : Rat)) * (2 : Rat) ^ (((n / 2 ^ 23 : Nat) : Int) - 150)

/-- Going up by one adds one unit in the last place of the mantissa. This holds across a carry into the exponent field
too: `2^24` units of one binade are `2^23` units of the next. -/
theorem magnitude_succ (n : Nat) :
    magnitude (n + 1) = magnitude n + (2 : Rat) ^ (((n / 2 ^ 23 : Nat) : Int) - 150) := by
  unfold magnitude
  by_cases hcarry : n % 2 ^ 23 = 2 ^ 23 - 1
  · have hmod : (n + 1) % 2 ^ 23 = 0 := by omega
    have hdiv : (((n + 1) / 2 ^ 23 : Nat) : Int) - 150 = ((n / 2 ^ 23 : Nat) : Int) - 150 + 1 := by omega
    rw [hmod, hdiv, hcarry, zpow_add_one₀ two_ne_zero]
    push_cast
    ring
  · have hmod : (n + 1) % 2 ^ 23 = n % 2 ^ 23 + 1 := by omega
    have hdiv : (n + 1) / 2 ^ 23 = n / 2 ^ 23 := by omega
    rw [hmod, hdiv]
    push_cast
    ring

theorem magnitude_strictMono : StrictMono magnitude := by
  refine strictMono_nat_of_lt_succ fun n => ?_
  rw [magnitude_succ]
  exact lt_add_of_pos_right _ (by positivity)

/-- Each exponent field begins its binade with a power of two. -/
theorem magnitude_binade_start (e : Nat) : magnitude (e * 2 ^ 23) = (2 : Rat) ^ ((e : Int) - 127) := by
  have hmod : e * 2 ^ 23 % 2 ^ 23 = 0 := by omega
  have hdiv : e * 2 ^ 23 / 2 ^ 23 = e := by omega
  have hexp : (e : Int) - 127 = 23 + ((e : Int) - 150) := by omega
  rw [magnitude, hmod, hdiv, hexp, zpow_add₀ two_ne_zero]
  norm_num

/-- A magnitude lies in the binade of its exponent field. -/
theorem magnitude_binade (n : Nat) :
    (2 : Rat) ^ (((n / 2 ^ 23 : Nat) : Int) - 127) ≤ magnitude n ∧
      magnitude n < (2 : Rat) ^ (((n / 2 ^ 23 : Nat) : Int) - 127 + 1) := by
  have hnext : ((n / 2 ^ 23 : Nat) : Int) - 127 + 1 = ((n / 2 ^ 23 + 1 : Nat) : Int) - 127 := by omega
  rw [hnext, ← magnitude_binade_start, ← magnitude_binade_start]
  exact ⟨magnitude_strictMono.monotone (by omega), magnitude_strictMono (by omega)⟩

theorem magnitude_pos (n : Nat) : 0 < magnitude n := by
  unfold magnitude
  positivity

/-- The least magnitude is that of 31 zeros, the greatest that of 31 ones. -/
theorem magnitude_bounds {n : Nat} (h : n < 2 ^ 31) :
    (2 : Rat) ^ (-127 : Int) ≤ magnitude n ∧ magnitude n ≤ (2 ^ 24 - 1) * 2 ^ 105 := by
  have hleast : magnitude 0 = (2 : Rat) ^ (-127 : Int) := magnitude_binade_start 0
  have hgreatest : magnitude (2 ^ 31 - 1) = (2 ^ 24 - 1) * 2 ^ 105 := by norm_num [magnitude]
  rw [← hleast, ← hgreatest]
  exact ⟨magnitude_strictMono.monotone (Nat.zero_le n), magnitude_strictMono.monotone (by omega)⟩

/-! ### The value of a word -/

/-- The value the stages compute from a word (R103). -/
def wordValue (w : Word) : Value :=
  scaledValue (signMulOf (signOf w)) (significandOf (mantissaOf w)) (unbiased (expFieldOf w))

/-- DECODE's value is that of the word it assembles. -/
theorem exec_decode_v {s t : State} (h : exec .decode s = .next t) : t.wires.v = wordValue t.wires.bits := by
  obtain ⟨-, rfl⟩ := exec_decode_next h
  rfl

/-- The value is the magnitude of the low 31 bits, with the sign that bit 31 says. -/
theorem wordValue_toRat (w : Word) :
    (wordValue w).toRat = (-1 : Rat) ^ (signOf w).toNat * magnitude (w.toNat % 2 ^ 31) := by
  have hm : w.toNat % 2 ^ 31 % 2 ^ 23 = (mantissaOf w).toNat := by
    rw [mantissaOf_toNat]
    omega
  have he : w.toNat % 2 ^ 31 / 2 ^ 23 = (expFieldOf w).toNat := by
    rw [expFieldOf_toNat]
    omega
  rw [wordValue, scaledValue_toRat, magnitude, hm, he, mul_assoc]

theorem abs_wordValue_toRat (w : Word) : |(wordValue w).toRat| = magnitude (w.toNat % 2 ^ 31) := by
  rw [wordValue_toRat, abs_mul, abs_pow, abs_neg, abs_one, one_pow, one_mul, abs_of_pos (magnitude_pos _)]

theorem wordValue_neg_iff (w : Word) : (wordValue w).toRat < 0 ↔ signOf w = 1#1 := by
  rw [wordValue_toRat]
  rcases bit_cases (signOf w) with h | h
  · simp [h, (magnitude_pos _).le]
  · simp [h, magnitude_pos]

/-- No word's value is zero. -/
theorem wordValue_ne_zero (w : Word) : (wordValue w).toRat ≠ 0 := by
  rw [← abs_pos, abs_wordValue_toRat]
  exact magnitude_pos _

theorem abs_wordValue_bounds (w : Word) :
    (2 : Rat) ^ (-127 : Int) ≤ |(wordValue w).toRat| ∧ |(wordValue w).toRat| ≤ (2 ^ 24 - 1) * 2 ^ 105 := by
  rw [abs_wordValue_toRat]
  exact magnitude_bounds (Nat.mod_lt _ (by decide))

/-- The magnitude is the significand times the power of two of SCALE. -/
theorem abs_wordValue_eq_scaled (w : Word) :
    |(wordValue w).toRat| = ((significandOf (mantissaOf w)).toNat : Rat) *
      (2 : Rat) ^ scaleExponent (unbiased (expFieldOf w)) := by
  rw [wordValue, abs_scaledValue_toRat, scaleExponent_unbiased, significandOf_toNat]
  norm_num

/-- The value lies in the binade of the signed exponent. -/
theorem abs_wordValue_binade (w : Word) :
    (2 : Rat) ^ unbiased (expFieldOf w) ≤ |(wordValue w).toRat| ∧
      |(wordValue w).toRat| < (2 : Rat) ^ (unbiased (expFieldOf w) + 1) := by
  have he : unbiased (expFieldOf w) = ((w.toNat % 2 ^ 31 / 2 ^ 23 : Nat) : Int) - 127 := by
    rw [unbiased, bias, expFieldOf_toNat]
    omega
  rw [abs_wordValue_toRat, he]
  exact magnitude_binade _

/-- Settles O32: the bounds and the order are those of the magnitudes of the low 31 bits, the sign is bit 31. -/
theorem valueRangeAndOrder : Obligations.ValueRangeAndOrder := by
  refine ⟨fun s hle => ?_, fun s s' t t' h h' => ?_⟩
  · obtain ⟨hleast, hgreatest⟩ := abs_wordValue_bounds (assembleWord (s.mem.byteAt s.offset)
      (s.mem.byteAt (s.offset + 1)) (s.mem.byteAt (s.offset + 2)) (s.mem.byteAt (s.offset + 3)))
    exact ⟨_, exec_decode_of_le hle, hleast, hgreatest, wordValue_ne_zero _, wordValue_neg_iff _,
      abs_wordValue_eq_scaled _, abs_wordValue_binade _⟩
  · rw [exec_decode_v h, exec_decode_v h', abs_wordValue_toRat, abs_wordValue_toRat]
    exact magnitude_strictMono.lt_iff_lt

/-! ### The word back from the value (R99) -/

/-- The magnitude gives back the low 31 bits, the sign of the value gives back bit 31. -/
theorem wordValue_toRat_injective : Function.Injective fun w : Word => (wordValue w).toRat := by
  intro w w' (h : (wordValue w).toRat = (wordValue w').toRat)
  have hlow : w.toNat % 2 ^ 31 = w'.toNat % 2 ^ 31 := by
    apply magnitude_strictMono.injective
    rw [← abs_wordValue_toRat, ← abs_wordValue_toRat, h]
  have hhigh : 0x80000000 ≤ w.toNat ↔ 0x80000000 ≤ w'.toNat := by
    rw [← signOf_eq_one_iff, ← signOf_eq_one_iff, ← wordValue_neg_iff, ← wordValue_neg_iff, h]
  have hw := w.isLt; have hw' := w'.isLt
  apply BitVec.eq_of_toNat_eq
  omega

/-- Two decodes that drive the same word read the same field: ASSEMBLE can be undone. -/
theorem fetchField_eq_of_bits_eq {s s' t t' : State} (h : exec .decode s = .next t) (h' : exec .decode s' = .next t')
    (hbits : t.wires.bits = t'.wires.bits) : s.mem.fetchField s.offset = s'.mem.fetchField s'.offset := by
  obtain ⟨hle, rfl⟩ := exec_decode_next h
  obtain ⟨hle', rfl⟩ := exec_decode_next h'
  rw [Memory.fetchField_of_le hle, Memory.fetchField_of_le hle']
  exact congrArg some (assembleWord_bijective.injective hbits)

/-- Fields fetched alike, from wherever, are alike byte by byte. -/
theorem Memory.read_eq_of_fetchField_eq {m m' : Memory} {a a' i : Nat} (hle : a + 4 ≤ m.len)
    (hle' : a' + 4 ≤ m'.len) (h : m.fetchField a = m'.fetchField a') (hi : i < 4) :
    m.read (a + i) = m'.read (a' + i) := by
  rw [Memory.fetchField_of_le hle, Memory.fetchField_of_le hle'] at h
  obtain ⟨h0, h1, h2, h3⟩ := Payload4.mk.inj (Option.some.inj h)
  rw [Memory.read_of_lt (by omega), Memory.read_of_lt (by omega)]
  refine congrArg some ?_
  match i, hi with
  | 0, _ => exact h0
  | 1, _ => exact h1
  | 2, _ => exact h2
  | 3, _ => exact h3

/-- Settles O36: the value gives back the word, and the word gives back the four bytes it was assembled from. -/
theorem distinctFieldsDistinctValues : Obligations.DistinctFieldsDistinctValues := by
  intro s s' t t' h h' hv
  rw [exec_decode_v h, exec_decode_v h'] at hv
  have hbits : t.wires.bits = t'.wires.bits := wordValue_toRat_injective hv
  obtain ⟨hle, -⟩ := exec_decode_next h
  obtain ⟨hle', -⟩ := exec_decode_next h'
  exact ⟨hbits, fun i hi => Memory.read_eq_of_fetchField_eq hle hle' (fetchField_eq_of_bits_eq h h' hbits) hi⟩

end Sys2Proof.Machine
end

section
/-! PROOFS. The Float Decoder as a whole (R102 to R104, R106): DECODE is its stages in order, it drives what the word of
the field calls for, and for a NORMAL word this is the number IEEE-754 assigns to it. -/

namespace Sys2Proof.Machine

/-! ### Operations one after the other (R102) -/

section chains
variable {i : Instr} {is : List Instr} {s : State}

theorem execAll_cons_of_next {t : State} (h : exec i s = .next t) : execAll (i :: is) s = execAll is t := by
  rw [execAll, h]

/-- A refusal ends the chain: no later operation runs. -/
theorem execAll_cons_of_refused {r : Refusal} (h : exec i s = .refused r) : execAll (i :: is) s = .refused r := by
  rw [execAll, h]

end chains

theorem exec_pack64 (s : State) : exec .pack64 s = .next (s.drive (Wires.pack64 s.wires)) := rfl

/-- Behind FETCH4 no stage of the decoder has a precondition, and together they drive what the decoder drives. -/
theorem execAll_stages_of_fetched (s : State) (f : Payload4) :
    execAll [.assemble, .xsign, .xexp, .unbias, .xmant, .signif, .signmul, .scale, .pack64]
        (s.drive (Wires.fetch4 f s.wires)) =
      .next (s.drive (Wires.decodeField f s.wires)) := by
  rw [execAll_cons_of_next (exec_assemble _), execAll_cons_of_next (exec_xsign _), execAll_cons_of_next (exec_xexp _),
    execAll_cons_of_next (exec_unbias _), execAll_cons_of_next (exec_xmant _), execAll_cons_of_next (exec_signif _),
    execAll_cons_of_next (exec_signmul _), execAll_cons_of_next (exec_scale _), execAll_cons_of_next (exec_pack64 _)]
  rfl

/-- Settles O28: outside the contract FETCH4 refuses as DECODE does, and ends the chain; inside it the stages behind
FETCH4 drive the decoder's wires. -/
theorem decodeIsItsStages : Obligations.DecodeIsItsStages := by
  intro s
  obtain hlt | hle := Nat.lt_or_ge s.mem.len (s.offset + 4)
  · rw [exec_decode_of_lt hlt, execAll_cons_of_refused (exec_fetch4_of_lt hlt)]
  · rw [exec_decode_of_le hle, execAll_cons_of_next (exec_fetch4_of_le hle), execAll_stages_of_fetched]

/-! ### The word of the field (R103) -/

theorem Memory.fieldWord_eq_assembleWord (m : Memory) (a : Nat) :
    m.fieldWord a = assembleWord (m.byteAt a) (m.byteAt (a + 1)) (m.byteAt (a + 2)) (m.byteAt (a + 3)) :=
  (assembleWord_eq_append _ _ _ _).symm

/-- DECODE inside the contract, by the word of the field: the word, its value, and the frame. -/
theorem exec_decode_fieldWord {s : State} (hle : s.offset + 4 ≤ s.mem.len) :
    ∃ t, exec .decode s = .next t ∧ t.wires.bits = s.mem.fieldWord s.offset ∧
      t.wires.v = wordValue (s.mem.fieldWord s.offset) ∧ t = { s with wires := t.wires } := by
  rw [Memory.fieldWord_eq_assembleWord]
  exact ⟨_, exec_decode_of_le hle, rfl, rfl, rfl⟩

/-- Settles O29: the value of the field's word is the closed form of its three fields. -/
theorem decodeClosedForm : Obligations.DecodeClosedForm := by
  rintro s w hle rfl
  obtain ⟨t, hexec, hbits, hv, hframe⟩ := exec_decode_fieldWord hle
  refine ⟨t, hexec, hbits, ?_, hframe⟩
  rw [hv]
  exact scaledValue_toRat _ _ _

/-! ### The four bytes and nothing else (R104) -/

theorem exec_decode_of_fetchField {s : State} {f : Payload4} (h : s.mem.fetchField s.offset = some f) :
    exec .decode s = .next (s.drive (Wires.decodeField f s.wires)) := by
  simp only [exec, execDecode, h]

/-- Four bytes that read alike, from wherever, are fetched alike. -/
theorem Memory.fetchField_eq_of_read_eq {m m' : Memory} {a a' : Nat} (hle : a + 4 ≤ m.len) (hle' : a' + 4 ≤ m'.len)
    (h : ∀ i, i < 4 → m.read (a + i) = m'.read (a' + i)) : m.fetchField a = m'.fetchField a' := by
  have hbyte (i : Nat) (hi : i < 4) : m.byteAt (a + i) = m'.byteAt (a' + i) := by
    have hread := h i hi
    rw [Memory.read_of_lt (by omega), Memory.read_of_lt (by omega)] at hread
    exact Option.some.inj hread
  rw [Memory.fetchField_of_le hle, Memory.fetchField_of_le hle', hbyte 1 (by decide), hbyte 2 (by decide),
    hbyte 3 (by decide), show m.byteAt a = m'.byteAt a' from hbyte 0 (by decide)]

/-- Settles O30: both states fetch the same field, and the decoder overwrites every wire from the field alone. -/
theorem decodeDependsOnFourBytes : Obligations.DecodeDependsOnFourBytes := by
  intro s s' hle hle' hread
  have hfetch := Memory.fetchField_of_le hle
  have hfetch' := (Memory.fetchField_eq_of_read_eq hle hle' hread).symm.trans hfetch
  exact ⟨_, _, exec_decode_of_fetchField hfetch, exec_decode_of_fetchField hfetch',
    Wires.decodeField_irrelevant _ _ _, rfl, rfl⟩

/-! ### The value of a NORMAL word (R98, R106) -/

/-- The number IEEE-754 assigns to a NORMAL word is the value the stages compute from it: the fraction form of the
significand is its integer form, 23 places down. -/
theorem ieee32Value_of_normal {w : Word} (h : classOf w = .normal) : ieee32Value w = some (wordValue w).toRat := by
  unfold ieee32Value
  rw [h]
  refine congrArg some ?_
  rw [wordValue, scaledValue_fraction (significandOf_toNat _), signMulOf_toRat]
  rfl

/-- A presented buffer that holds the bytes of a word at an index has that word there. -/
theorem Memory.fieldWord_ofBytes {bytes : List Byte} {a : Nat} {w : Word}
    (h : (bytes.drop a).take 4 = encodePayload4 w) : (Memory.ofBytes bytes).fieldWord a = w := by
  rw [Memory.fieldWord_eq_assembleWord, assembleWord_ofBytes_field h]

/-- Settles O35: the buffer's first four bytes are the word's, so its value is decoded, whatever follows. -/
theorem normalValuesRoundTrip : Obligations.NormalValuesRoundTrip := by
  intro w q after s hnormal hq hmem hoffset
  have hword : s.mem.fieldWord s.offset = w := by
    rw [hmem, hoffset]
    exact Memory.fieldWord_ofBytes rfl
  have hle : s.offset + 4 ≤ s.mem.len := by
    simp [hmem, hoffset, encodePayload4]
  obtain ⟨t, hexec, -, hv, -⟩ := exec_decode_fieldWord hle
  refine ⟨t, hexec, ?_⟩
  rw [hv, hword]
  exact Option.some.inj ((ieee32Value_of_normal hnormal).symm.trans hq)

end Sys2Proof.Machine
end

section
/-! PROOFS. The Uplink Adapter (R110 to R112, R114): the form of the Result follows from the length alone, and the value
of the success form from the word of the payload's first four bytes. -/

namespace Sys2Proof.Machine

/-- Presented buffers that agree in the four bytes from an index on have the same word there. -/
theorem Memory.fieldWord_ofBytes_congr {bytes bytes' : List Byte} {a : Nat}
    (h : (bytes.drop a).take 4 = (bytes'.drop a).take 4) :
    (Memory.ofBytes bytes).fieldWord a = (Memory.ofBytes bytes').fieldWord a := by
  have hbyte (i : Nat) (hi : i < 4) :
      (Memory.ofBytes bytes).byteAt (a + i) = (Memory.ofBytes bytes').byteAt (a + i) :=
    (Memory.byteAt_ofBytes_run h hi).trans (Memory.byteAt_ofBytes_run rfl hi).symm
  rw [Memory.fieldWord, Memory.fieldWord, hbyte 1 (by decide), hbyte 2 (by decide), hbyte 3 (by decide),
    show (Memory.ofBytes bytes).byteAt a = (Memory.ofBytes bytes').byteAt a from hbyte 0 (by decide)]

/-- The success Result of a step of UPLINK carries the value of the word at index 0 of the payload (R112). -/
theorem step_uplink_result_of_le {s : State} {bytes : List Byte} {off : Option Nat} {rest : List Invocation}
    (h : s.pending = ⟨.uplink, some ⟨bytes, off⟩⟩ :: rest) (hlen : 4 ≤ bytes.length) :
    ∃ t, step s = .next t ∧ t.result = some (.ok (wordValue ((Memory.ofBytes bytes).fieldWord 0))) := by
  rw [Memory.fieldWord_eq_assembleWord]
  exact ⟨_, step_uplink_of_le h hlen, State.reportValue_result _⟩

/-- Settles O42: each Result carries the value of the payload's first word, and the two first words are one. -/
theorem trailingBytesIgnored : Obligations.TrailingBytesIgnored := by
  intro s s' bytes bytes' off off' rest rest' hpending hpending' hlen hlen' htake
  obtain ⟨t, hstep, hresult⟩ := step_uplink_result_of_le hpending hlen
  obtain ⟨t', hstep', hresult'⟩ := step_uplink_result_of_le hpending' hlen'
  rw [← Memory.fieldWord_ofBytes_congr (a := 0) htake] at hresult'
  exact ⟨t, t', _, hstep, hstep', hresult, hresult'⟩

/-- Settles O38: the row performed on a short payload is the report of the error. -/
theorem shortPayloadFails : Obligations.ShortPayloadFails :=
  fun _ hlt => ⟨_, exec_uplinkErr_of_lt hlt, rfl⟩

/-- Settles O39: both decoders read the field at index 0 and overwrite every wire from it, so the wires of the one inside
UADP end as FDEC's would. -/
theorem longPayloadSucceeds : Obligations.LongPayloadSucceeds := by
  intro s hle
  have hdecode := exec_decode_of_le (s := { s with offset := 0 }) (show 0 + 4 ≤ s.mem.len by omega)
  exact ⟨_, _, exec_uplinkOk_of_le hle, hdecode,
    congrArg (fun w => (s.driveAdapter w).reportValue) (Wires.decodeField_irrelevant _ _ _),
    (Memory.fieldWord_eq_assembleWord _ _).symm⟩

end Sys2Proof.Machine
end

section
/-! PROOFS. The invariant along every step: the row performed either writes the Result from the buffer on the ports, or
drives wires of FDEC that the inputs have fixed already (R141, R148). -/

namespace Sys2Proof.Machine

/-- Settles O4: the definition of a step, read for a queue that has a first invocation. -/
theorem stepPerformsSelectedRow : Obligations.StepPerformsSelectedRow := by
  intro s inv rest hpending
  unfold step
  rw [hpending]

/-- A step that answers a next state performed the selected row on a pending invocation. -/
theorem step_next {s t : State} (h : step s = .next t) :
    ∃ inv rest, s.pending = inv :: rest ∧
      exec (decodeOp inv.op (State.present { s with pending := rest } inv).mem.len)
        (State.present { s with pending := rest } inv) = .next t := by
  cases hpending : s.pending with
  | nil =>
    unfold step at h
    rw [hpending] at h
    cases h
  | cons inv rest => exact ⟨inv, rest, rfl, (stepPerformsSelectedRow s inv rest hpending).symm.trans h⟩

/-- Outside FDEC's contract no wire of it is called for, so whatever it drives keeps the invariant (R101). -/
theorem drive_inv_of_lt {s : State} (h : Inv s) (hlt : s.mem.len < s.offset + 4) (w : Wires) : Inv (s.drive w) where
  memory := h.memory
  decoder := fun f hf => by
    rw [State.drive_mem, State.drive_offset, Memory.fetchField_of_lt hlt] at hf
    cases hf
  result := h.result

/-- UPLINK selects no row but its own two. -/
theorem ne_uplink_of_decodeOp_ne {op : Operation} {len : Nat} (herr : decodeOp op len ≠ .uplinkErr)
    (hok : decodeOp op len ≠ .uplinkOk) : op ≠ .uplink := by
  rintro rfl
  obtain hlt | hle := Nat.lt_or_ge len 4
  · exact herr (decodeOp_uplink_of_lt hlt)
  · exact hok (decodeOp_uplink_of_le hle)

/-- Every selected row keeps the invariant. Inside the contract an operation of FDEC finds the wires it would drive
driven, and changes nothing. -/
theorem exec_selected_inv {op : Operation} {len : Nat} {s t : State} (h : Inv s)
    (hexec : exec (decodeOp op len) s = .next t) : Inv t := by
  obtain ⟨hne, hne', hdrive⟩ | ⟨-, hlt, rfl⟩ | ⟨-, -, f, hf, rfl⟩ := exec_next_cases hexec
  · obtain ⟨-, hfetch⟩ | ⟨hlt, -⟩ := Memory.fetchField_cases s.mem s.offset
    · rw [exec_settled (ne_uplink_of_decodeOp_ne hne hne') len hfetch (h.decoder _ hfetch)] at hexec
      exact Host.Outcome.next.inj hexec ▸ h
    · rw [hdrive]
      exact drive_inv_of_lt h hlt _
  · exact reportError_inv h hlt
  · exact reportValue_inv h hf

/-- Settles O3: taking an invocation off the queue keeps the invariant, presenting it keeps or renews it, and performing
the selected row keeps it. -/
theorem everyStepKeepsInvariant : Obligations.EveryStepKeepsInvariant := by
  intro s t h hstep
  obtain ⟨inv, rest, -, hexec⟩ := step_next hstep
  exact exec_selected_inv (present_inv (inv_withPending h rest) inv) hexec

/-- Settles O2: the buffer is empty, so it is canonical and no field of it is on FDEC's ports, and no Result stands. -/
theorem resetMeetsInvariant : Obligations.ResetMeetsInvariant where
  memory := rfl
  decoder := fun f hf => by
    rw [Memory.fetchField_of_lt (show State.reset.mem.len < State.reset.offset + 4 by decide)] at hf
    cases hf
  result := trivial

/-- Settles O1: an index would have to lie below the length 0, and the queue is empty. -/
theorem resetHoldsNothing : Obligations.ResetHoldsNothing :=
  ⟨rfl, fun a => if_neg (Nat.not_lt_zero a), rfl, rfl, rfl⟩

end Sys2Proof.Machine
end

section
/-! PROOFS. The encoded field (R50, R51): every wire of a decoder is a function of the word it assembles, and the bytes
of a word, anywhere in a presented buffer, are assembled to it. -/

namespace Sys2Proof.Machine

/-- The wires that a word calls for: those of DECODE on its lanes, whatever the wires before. -/
def wordWires (w : Word) : Wires := Wires.decodeField (laneBytes w) State.resetWires

/-- A decoder drives the wires of the word it assembles. -/
theorem decodeField_eq_wordWires (f : Payload4) (ws : Wires) :
    Wires.decodeField f ws = wordWires (assembleWord f.b0 f.b1 f.b2 f.b3) := by
  rw [wordWires, laneBytes_assembleWord]
  exact Wires.decodeField_irrelevant _ _ _

/-- DECODE inside the contract drives the wires of the field's word. -/
theorem exec_decode_wordWires {s : State} (h : s.offset + 4 ≤ s.mem.len) :
    exec .decode s = .next (s.drive (wordWires (s.mem.fieldWord s.offset))) := by
  rw [exec_decode_of_le h, decodeField_eq_wordWires, Memory.fieldWord_eq_assembleWord]

section wordWires
variable (w : Word)

/-- The lanes of a word assemble to it, in the form in which the decoder's wires name them. -/
theorem assembleWord_laneBytes :
    assembleWord (laneBytes w).b0 (laneBytes w).b1 (laneBytes w).b2 (laneBytes w).b3 = w := assembleWord_lanes w

@[simp] theorem wordWires_bits : (wordWires w).bits = w := assembleWord_laneBytes w

@[simp] theorem wordWires_sign : (wordWires w).sign = signOf w := congrArg signOf (assembleWord_laneBytes w)

@[simp] theorem wordWires_expField : (wordWires w).expField = expFieldOf w :=
  congrArg expFieldOf (assembleWord_laneBytes w)

@[simp] theorem wordWires_mantissa : (wordWires w).mantissa = mantissaOf w :=
  congrArg mantissaOf (assembleWord_laneBytes w)

@[simp] theorem wordWires_signMul : (wordWires w).signMul = signMulOf (signOf w) :=
  congrArg (fun w => signMulOf (signOf w)) (assembleWord_laneBytes w)

@[simp] theorem wordWires_v : (wordWires w).v = wordValue w := congrArg wordValue (assembleWord_laneBytes w)

@[simp] theorem wordWires_value64 :
    (wordWires w).value64 = packed64 (signOf w) (expFieldOf w) (mantissaOf w) :=
  congrArg (fun w => packed64 (signOf w) (expFieldOf w) (mantissaOf w)) (assembleWord_laneBytes w)

/-- Every port of FDEC carries what the word calls for. -/
theorem wordWires_carriesWord : CarriesWord (decoderOutputs (wordWires w)) w := by
  have h := carriesWord_decodeField (laneBytes w) State.resetWires
  rwa [assembleWord_laneBytes] at h

end wordWires

/-- Where the bytes of a word can be taken from a buffer, they lie inside it. -/
theorem le_length_of_take_eq_encodePayload4 {bytes : List Byte} {a : Nat} {w : Word}
    (h : (bytes.drop a).take 4 = encodePayload4 w) : a + 4 ≤ bytes.length := by
  have hlen := congrArg List.length h
  simp only [List.length_take, List.length_drop, encodePayload4, List.length_cons, List.length_nil] at hlen
  omega

/-- Settles O14: the buffer holds the bytes of the encoded word at the offset, so DECODE drives that word and the fields
it was encoded from. -/
theorem encodedFieldDecodes : Obligations.EncodedFieldDecodes := by
  intro sg e m before after s hmem hoffset
  have hfield : ((before ++ encodePayload4 (encodeB32 sg e m) ++ after).drop before.length).take 4 =
      encodePayload4 (encodeB32 sg e m) := by
    rw [List.append_assoc, List.drop_left]
    rfl
  have hle : s.offset + 4 ≤ s.mem.len := by
    rw [hmem, hoffset]
    exact le_length_of_take_eq_encodePayload4 hfield
  have hword : s.mem.fieldWord s.offset = encodeB32 sg e m := by
    rw [hmem, hoffset]
    exact Memory.fieldWord_ofBytes hfield
  have hexec := exec_decode_wordWires hle
  rw [hword] at hexec
  refine ⟨_, hexec, ?_⟩
  simp only [State.drive_wires, wordWires_bits, wordWires_sign, wordWires_expField, wordWires_mantissa, true_and]
  exact ⟨signOf_encodeB32 sg e m, expFieldOf_encodeB32 sg e m, mantissaOf_encodeB32 sg e m,
    encodeB32_toNat sg e m⟩

end Sys2Proof.Machine
end

section
/-! PROOFS. The canonical form (assumption log 6): the cells of a canonical buffer are read off its bytes. -/

namespace Sys2Proof.Machine

theorem Memory.cellsWf_cons {len lo a : Nat} {b : Byte} {cells : List Host.Cell} :
    Memory.cellsWf len lo ((a, b) :: cells) = true ↔
      lo ≤ a ∧ a < len ∧ b ≠ Memory.unlisted ∧ Memory.cellsWf len (a + 1) cells = true := by
  simp [Memory.cellsWf, and_assoc]

theorem Memory.lookup_cons_same (a : Nat) (b : Byte) (cells : List Host.Cell) :
    Memory.lookup ((a, b) :: cells) a = b := if_pos rfl

theorem Memory.lookup_cons_ne {a x : Nat} (h : a ≠ x) (b : Byte) (cells : List Host.Cell) :
    Memory.lookup ((a, b) :: cells) x = Memory.lookup cells x := if_neg h

/-- The cells rise, so an index below their bound is not listed. -/
theorem Memory.lookup_of_cellsWf_below {len lo x : Nat} {cells : List Host.Cell}
    (h : Memory.cellsWf len lo cells = true) (hx : x < lo) : Memory.lookup cells x = Memory.unlisted := by
  induction cells generalizing lo with
  | nil => rfl
  | cons cell cells ih =>
    obtain ⟨hlo, -, -, htail⟩ := Memory.cellsWf_cons.mp h
    rw [Memory.lookup_cons_ne (by omega)]
    exact ih htail (by omega)

/-- Every cell of a canonical list is seen in a read, so a list that reads as nothing has no cell. -/
theorem Memory.eq_nil_of_lookup_unlisted {len lo : Nat} {cells : List Host.Cell}
    (h : Memory.cellsWf len lo cells = true) (hread : ∀ x, x < len → Memory.lookup cells x = Memory.unlisted) :
    cells = [] := by
  cases cells with
  | nil => rfl
  | cons cell cells =>
    obtain ⟨-, hlen, hne, -⟩ := Memory.cellsWf_cons.mp h
    exact absurd ((Memory.lookup_cons_same _ _ _).symm.trans (hread _ hlen)) hne

/-- Of two canonical lists that read alike, neither begins after the other. -/
theorem Memory.head_le_of_lookup_eq {len lo lo' a a' : Nat} {b b' : Byte} {cells cells' : List Host.Cell}
    (h : Memory.cellsWf len lo ((a, b) :: cells) = true) (h' : Memory.cellsWf len lo' ((a', b') :: cells') = true)
    (hread : ∀ x, x < len → Memory.lookup ((a, b) :: cells) x = Memory.lookup ((a', b') :: cells') x) : a' ≤ a := by
  obtain ⟨-, hlen, hne, -⟩ := Memory.cellsWf_cons.mp h
  obtain ⟨-, hrest'⟩ := Memory.cellsWf_cons.mp h'
  have hfrom : Memory.cellsWf len a' ((a', b') :: cells') = true := Memory.cellsWf_cons.mpr ⟨Nat.le_refl a', hrest'⟩
  by_contra hlt
  refine hne ?_
  calc b
    _ = Memory.lookup ((a, b) :: cells) a := (Memory.lookup_cons_same a b cells).symm
    _ = Memory.lookup ((a', b') :: cells') a := hread a hlen
    _ = Memory.unlisted := Memory.lookup_of_cellsWf_below hfrom (by omega)

/-- Canonical lists of cells that read alike below the length are one list: the first cells agree in their index and in
their byte, and what follows reads alike again. -/
theorem Memory.cells_eq_of_lookup_eq {len lo lo' : Nat} {cells cells' : List Host.Cell}
    (h : Memory.cellsWf len lo cells = true) (h' : Memory.cellsWf len lo' cells' = true)
    (hread : ∀ x, x < len → Memory.lookup cells x = Memory.lookup cells' x) : cells = cells' := by
  induction cells generalizing cells' lo lo' with
  | nil => exact (Memory.eq_nil_of_lookup_unlisted h' fun x hx => (hread x hx).symm).symm
  | cons cell cells ih =>
    cases cells' with
    | nil => exact Memory.eq_nil_of_lookup_unlisted h hread
    | cons cell' cells' =>
      obtain ⟨a, b⟩ := cell
      obtain ⟨a', b'⟩ := cell'
      obtain rfl : a = a' := Nat.le_antisymm (Memory.head_le_of_lookup_eq h' h fun x hx => (hread x hx).symm)
        (Memory.head_le_of_lookup_eq h h' hread)
      obtain ⟨-, hlen, -, htail⟩ := Memory.cellsWf_cons.mp h
      obtain ⟨-, -, -, htail'⟩ := Memory.cellsWf_cons.mp h'
      obtain rfl : b = b' := by simpa only [Memory.lookup_cons_same] using hread a hlen
      refine congrArg _ (ih htail htail' fun x hx => ?_)
      obtain hgt | hle := Nat.lt_or_ge a x
      · simpa only [Memory.lookup_cons_ne (show a ≠ x by omega)] using hread x hx
      · rw [Memory.lookup_of_cellsWf_below htail (by omega), Memory.lookup_of_cellsWf_below htail' (by omega)]

/-- Settles O11: below the length a read is the look-up of a cell, and canonical cells are determined by their look-ups. -/
theorem canonicalBuffersAgree : Obligations.CanonicalBuffersAgree := by
  rintro ⟨cells, len⟩ ⟨cells', _⟩ hwf hwf' rfl hread
  refine congrArg (Memory.mk · len) (Memory.cells_eq_of_lookup_eq hwf hwf' fun x hx => ?_)
  have hx' := hread x
  rw [Memory.read_of_lt hx, Memory.read_of_lt (m := ⟨cells', len⟩) hx] at hx'
  exact Option.some.inj hx'

end Sys2Proof.Machine
end

section
/-! PROOFS. Presenting an invocation, and which row it selects (R24, R58, R107, R135; assumption logs 1 to 3 and 10). -/

namespace Sys2Proof.Machine

/-- An omitted offset is the offset 0 (R107). -/
theorem offsetPort_none (op : Operation) (held : Nat) : offsetPort op held none = offsetPort op held (some 0) := by
  cases op <;> rfl

/-- FDEC's offset port after presenting, by the block used. -/
theorem offsetPort_eq_ite (op : Operation) (held : Nat) (given : Option Nat) :
    offsetPort op held given = if op = .uplink then held else given.getD 0 := by
  split
  · next hop => rw [hop, offsetPort_uplink]
  · next hop => exact offsetPort_of_ne hop held given

/-- Settling does not look at whether inputs were ever presented. -/
theorem State.settle_withPresented (s : State) (p : Bool) :
    State.settle { s with presented := p } = { s.settle with presented := p } := by
  obtain ⟨hle, -⟩ | ⟨hlt, -⟩ := Memory.fetchField_cases s.mem s.offset
  · rw [State.settle_of_le s hle]
    exact State.settle_of_le { s with presented := p } hle
  · rw [State.settle_of_lt s hlt]
    exact State.settle_of_lt { s with presented := p } hlt

/-- Putting inputs on the ports does not look at it either. -/
theorem State.putInputs_withPresented (s : State) (p : Bool) (op : Operation) (inputs : Inputs) :
    State.putInputs { s with presented := p } op inputs = { s.putInputs op inputs with presented := p } :=
  State.settle_withPresented
    { s.releaseAdapter with
      mem := Memory.ofBytes inputs.bytes
      offset := offsetPort op s.offset inputs.offset
      result := none } p

/-- Kept inputs where none were ever presented: as if some had been, but that this is not remembered. -/
theorem State.present_none_eq_present_some {s : State} (h : s.presented = false) (op : Operation) :
    s.present ⟨op, none⟩ =
      { State.present { s with freeCount := s.freeCount + 1 } ⟨op, some (Config.freeInputs s.freeCount)⟩ with
        presented := false } := by
  rw [State.present_none_of_not_presented s op h, State.present_some, ← State.putInputs_withPresented, ← h]

/-- Settles O6: presenting puts the bytes and the offset on the ports and clears the Result; kept inputs are left
alone, or drawn where there are none. -/
theorem presentingDrivesPorts : Obligations.PresentingDrivesPorts := by
  refine ⟨fun s op bytes off => ?_, fun s op => State.present_none_of_presented s op, fun s op h => ?_⟩
  · simp only [State.present_some, State.putInputs_mem, State.putInputs_offset, State.putInputs_result,
      State.putInputs_presented, State.putInputs_pending, Memory.ofBytes_len, Memory.toBytes_ofBytes,
      offsetPort_eq_ite, true_and]
    refine ⟨Memory.read_ofBytes bytes, Memory.wf_ofBytes bytes, ?_⟩
    rw [State.putInputs, State.putInputs, offsetPort_none]
  · exact ⟨_, _, _, State.present_none_eq_present_some h op⟩

/-- Settles O5: the word's payload is the invocation presented, and its row is the one selected by its length. -/
theorem placedWordRunsItsRow : Obligations.PlacedWordRunsItsRow := by
  intro s nbits w i hi
  obtain rfl : decodeOp .uplink (payloadOfWord nbits w).length = i := Option.some.inj hi
  exact step_with_inputs rfl

/-- The row encoded is the row selected, constructor by constructor. -/
theorem encode_selected (i : Instr) : Laws.Selected.Statement i := by
  cases i
  case fetch4 => exact Laws.Selected.fetch4
  case assemble => exact Laws.Selected.assemble
  case xsign => exact Laws.Selected.xsign
  case xexp => exact Laws.Selected.xexp
  case unbias => exact Laws.Selected.unbias
  case xmant => exact Laws.Selected.xmant
  case signif => exact Laws.Selected.signif
  case signmul => exact Laws.Selected.signmul
  case scale => exact Laws.Selected.scale
  case pack64 => exact Laws.Selected.pack64
  case decode => exact Laws.Selected.decode
  case uplinkErr => exact Laws.Selected.uplinkErr
  case uplinkOk => exact Laws.Selected.uplinkOk

/-- Settles O12: the row is selected by the length of the bytes encoded, which presenting puts on the port as they are. -/
theorem encodedRowIsSelected : Obligations.EncodedRowIsSelected := by
  intro i bytes off s hwf
  simp only [encode, State.present_some, State.putInputs_mem, State.putInputs_offset, Memory.toBytes_ofBytes,
    Memory.ofBytes_len, offsetPort_eq_ite, and_true]
  exact encode_selected i bytes off hwf

/-- Settles O13: words of the spec's encodings, computed. -/
theorem specWordsDecode : Obligations.SpecWordsDecode := by
  unfold Obligations.SpecWordsDecode
  decide

end Sys2Proof.Machine
end

section
/-! PROOFS. What a step answers (R35, R105, R149): every selected row completes, but for FETCH4 and DECODE outside the
contract, and none faults. -/

namespace Sys2Proof.Machine

/-- The invocations that are refused as out of contract (R35). -/
def OutOfContract (op : Operation) (s : State) : Prop :=
  (op = .fetch4 ∨ op = .decode) ∧ s.mem.len < s.offset + 4

theorem exec_selected_refused {op : Operation} {s : State} (h : OutOfContract op s) (len : Nat) :
    exec (decodeOp op len) s = .refused .outOfContract := by
  obtain ⟨rfl | rfl, hlt⟩ := h
  · exact exec_fetch4_of_lt hlt
  · exact exec_decode_of_lt hlt

/-- Either row of UPLINK completes where the length on the port selects it (R115). -/
theorem exec_uplink_completes (s : State) :
    ∃ r w n, exec (decodeOp .uplink s.mem.len) s =
      .next { s with adapterWires := w, result := some r, freeCount := n } := by
  obtain hlt | hle := Nat.lt_or_ge s.mem.len 4
  · rw [decodeOp_uplink_of_lt hlt, exec_uplinkErr_of_lt hlt]
    exact ⟨_, _, _, rfl⟩
  · rw [decodeOp_uplink_of_le hle, exec_uplinkOk_of_le hle]
    exact ⟨_, _, _, rfl⟩

theorem exec_selected_completes {op : Operation} {s : State} (h : ¬ OutOfContract op s) :
    ∃ t, exec (decodeOp op s.mem.len) s = .next t := by
  cases op
  case fetch4 => exact ⟨_, exec_fetch4_of_le (Nat.le_of_not_lt fun hlt => h ⟨.inl rfl, hlt⟩)⟩
  case decode => exact ⟨_, exec_decode_of_le (Nat.le_of_not_lt fun hlt => h ⟨.inr rfl, hlt⟩)⟩
  case uplink =>
    obtain ⟨_, _, _, hexec⟩ := exec_uplink_completes s
    exact ⟨_, hexec⟩
  case assemble => exact ⟨_, exec_assemble s⟩
  case xsign => exact ⟨_, exec_xsign s⟩
  case xexp => exact ⟨_, exec_xexp s⟩
  case unbias => exact ⟨_, exec_unbias s⟩
  case xmant => exact ⟨_, exec_xmant s⟩
  case signif => exact ⟨_, exec_signif s⟩
  case signmul => exact ⟨_, exec_signmul s⟩
  case scale => exact ⟨_, exec_scale s⟩
  case pack64 => exact ⟨_, exec_pack64 s⟩

/-- Settles O8: a step is the selected row on the presented inputs, and that row completes exactly in the contract. -/
theorem everyInvocationCompletes : Obligations.EveryInvocationCompletes := by
  rintro s inv rest hpending p rfl
  rw [stepPerformsSelectedRow s inv rest hpending]
  exact ⟨exec_selected_completes, fun hout => exec_selected_refused hout _⟩

/-- All that a step can answer, by the queue. -/
theorem step_cases (s : State) :
    (s.pending = [] ∧ step s = .refused .noInvocation) ∨
      ∃ inv rest, s.pending = inv :: rest ∧ ((∃ t, step s = .next t) ∨ step s = .refused .outOfContract) := by
  cases hpending : s.pending with
  | nil =>
    refine .inl ⟨rfl, ?_⟩
    unfold step
    rw [hpending]
  | cons inv rest =>
    obtain ⟨hnext, hrefused⟩ := everyInvocationCompletes s inv rest hpending _ rfl
    exact .inr ⟨inv, rest, rfl, (Classical.em _).symm.imp hnext hrefused⟩

/-- Settles O7: a next state comes of a row, which leaves the rest of the queue alone; the other answers are the two
refusals. -/
theorem stepConsumesOneInvocation : Obligations.StepConsumesOneInvocation := by
  intro s
  refine ⟨fun t hstep => ?_, ?_⟩
  · obtain ⟨inv, rest, hpending, hexec⟩ := step_next hstep
    obtain ⟨-, -, hrest⟩ := exec_keeps_inputs hexec
    rw [State.present_pending] at hrest
    exact ⟨inv, by rw [hpending, hrest]⟩
  · obtain ⟨hempty, hstep⟩ | ⟨inv, rest, hpending, ⟨t, hstep⟩ | hstep⟩ := step_cases s
    · simp [hempty, hstep]
    · simp [hpending, hstep]
    · simp [hpending, hstep]

/-- Settles O10: the rows of UPLINK apart, `exec` drives FDEC's wires and nothing else. -/
theorem onlyUplinkWritesResult : Obligations.OnlyUplinkWritesResult := by
  intro i s t hne hne' hexec
  obtain ⟨-, -, hdrive⟩ | ⟨herr, -, -⟩ | ⟨hok, -, -⟩ := exec_next_cases hexec
  · rw [hdrive]
    exact ⟨rfl, rfl⟩
  · exact absurd herr hne
  · exact absurd hok hne'

/-- Settles O17: DECODE and FETCH4 answer by the one comparison of R35. -/
theorem outOfContractIsRefused : Obligations.OutOfContractIsRefused := by
  intro s
  obtain hlt | hle := Nat.lt_or_ge s.mem.len (s.offset + 4)
  · simp [exec_decode_of_lt hlt, exec_fetch4_of_lt hlt, hlt]
  · simp [exec_decode_of_le hle, exec_fetch4_of_le hle, hle]

/-- Settles O40: each row of UPLINK tests its own condition first. -/
theorem unselectedRowIsRefused : Obligations.UnselectedRowIsRefused :=
  fun _ => ⟨fun hle => if_neg (Nat.not_lt.mpr hle), fun hlt => if_pos hlt⟩

/-- Settles O46: the row runs on the state as it stands; a row of FDEC drives its wires, and UPLINK writes its own. -/
theorem keptInputsStay : Obligations.KeptInputsStay := by
  intro s op rest hpresented hpending
  rw [step_kept hpresented hpending]
  have hfdec : op ≠ .uplink → ∀ t, exec (decodeOp op s.mem.len) { s with pending := rest } = .next t →
      t = { s with pending := rest, wires := t.wires } := fun hop t hexec =>
    (onlyUplinkWritesResult _ _ t (fun h => hop (decodeOp_eq_uplink (.inl h)))
      (fun h => hop (decodeOp_eq_uplink (.inr h))) hexec).2
  obtain ⟨r, w, n, huplink⟩ := exec_uplink_completes { s with pending := rest }
  refine ⟨rfl, fun t hexec => ?_, ?_, hfdec⟩
  · by_cases hop : op = .uplink
    · subst hop
      obtain rfl := Host.Outcome.next.inj (huplink.symm.trans hexec)
      exact ⟨rfl, rfl, hpresented, rfl⟩
    · rw [hfdec hop t hexec]
      exact ⟨rfl, rfl, hpresented, rfl⟩
  · rintro rfl
    exact ⟨_, r, huplink, rfl, rfl⟩

end Sys2Proof.Machine
end

section
/-! PROOFS. The number on the output port (R57, R93, R95), and the value of a word class by class, beside the number that
IEEE-754 assigns to it (R55, R97, R98; assumption log 12). -/

namespace Sys2Proof.Machine

/-- Settles O27: what PACK64 drives is laid out field over field, and reads as binary64 by those fields. -/
theorem pack64Layout : Obligations.Pack64Layout := by
  intro s
  obtain ⟨hsign, hexp, hmantissa, hzeros, -⟩ := packed64_fields s.wires.sign s.wires.expField s.wires.mantissa
  exact ⟨_, exec_pack64 s, packed64_toNat _ _ _, hsign, hexp, hmantissa, hzeros, binary64Value_packed64 _ _ _, rfl⟩

/-- The value of a word in the fraction form. -/
theorem wordValue_fraction (w : Word) :
    (wordValue w).toRat =
      (-1 : Rat) ^ (signOf w).toNat * (1 + ((mantissaOf w).toNat : Rat) / 2 ^ 23)
        * (2 : Rat) ^ (((expFieldOf w).toNat : Int) - 127) := by
  rw [wordValue, scaledValue_fraction (significandOf_toNat _), signMulOf_toRat]
  rfl

/-- Packing a word's fields loses nothing of its value (R93). -/
theorem binary64Value_packed64_fields (w : Word) :
    binary64Value (packed64 (signOf w) (expFieldOf w) (mantissaOf w)) = some (wordValue w).toRat := by
  rw [binary64Value_packed64, wordValue_fraction]

/-- Settles O31: DECODE drives the packed fields of the word beside its value; rebiased, an 8-bit exponent field lies in
896..1151. -/
theorem portCarriesExactValue : Obligations.PortCarriesExactValue := by
  intro s hle
  refine ⟨_, exec_decode_wordWires hle, ?_⟩
  simp only [State.drive_wires, wordWires_value64, wordWires_v]
  generalize s.mem.fieldWord s.offset = w
  obtain ⟨-, hexp, -⟩ := packed64_fields (signOf w) (expFieldOf w) (mantissaOf w)
  have he := (expFieldOf w).isLt
  rw [hexp]
  exact ⟨binary64Value_packed64_fields w, by omega, by omega⟩

/-! ### The classes (R55) -/

theorem classOf_eq_expZero_iff (w : Word) : classOf w = .expZero ↔ expFieldOf w = 0#8 := by
  unfold classOf
  split_ifs with h0 <;> simp [h0]

theorem classOf_eq_expOnes_iff (w : Word) : classOf w = .expOnes ↔ expFieldOf w = 255#8 := by
  unfold classOf
  split_ifs with h0 h255
  · simp [h0]
  · simp [h255]
  · simp [h255]

theorem classOf_eq_normal_iff (w : Word) : classOf w = .normal ↔ expFieldOf w ≠ 0#8 ∧ expFieldOf w ≠ 255#8 := by
  unfold classOf
  split_ifs with h0 h255
  · simp [h0]
  · simp [h255]
  · simp [h0, h255]

/-- Settles O37: the class is told by the exponent field, which is the number formed by bits 30..23. -/
theorem classesByExponentField : Obligations.ClassesByExponentField := by
  intro w
  rw [classOf_eq_expZero_iff, classOf_eq_expOnes_iff, classOf_eq_normal_iff, ne_eq, ne_eq, ← BitVec.toNat_inj,
    ← BitVec.toNat_inj, expFieldOf_toNat, BitVec.toNat_ofNat, BitVec.toNat_ofNat]
  omega

/-! ### Exponent field 0 (R97) -/

/-- The value of a word by the closed form, with the sign as the multiplier. -/
theorem wordValue_closed (w : Word) :
    (wordValue w).toRat =
      ((signMulOf (signOf w)).toInt : Rat) * (2 ^ 23 + ((mantissaOf w).toNat : Rat))
        * (2 : Rat) ^ (((expFieldOf w).toNat : Int) - 150) := by
  rw [signMulOf_toRat]
  exact scaledValue_toRat _ _ _

/-- Where the formula puts the implicit bit and the exponent -127, IEEE-754 has no such bit and the exponent -126. -/
theorem ieee32Value_of_expZero {w : Word} (h : classOf w = .expZero) :
    ∃ q, ieee32Value w = some q ∧
      |(wordValue w).toRat| - |q| = (2 ^ 23 - ((mantissaOf w).toNat : Rat)) * (2 : Rat) ^ (-150 : Int) := by
  have hieee : ieee32Value w =
      some ((-1 : Rat) ^ (signOf w).toNat * ((mantissaOf w).toNat : Rat) * (2 : Rat) ^ (-149 : Int)) := by
    unfold ieee32Value
    rw [h]
  have hunit : (2 : Rat) ^ (-149 : Int) = 2 * (2 : Rat) ^ (-150 : Int) := by
    rw [show (-149 : Int) = 1 + -150 by decide, zpow_add₀ two_ne_zero, zpow_one]
  have hvalue : |(wordValue w).toRat| = (2 ^ 23 + ((mantissaOf w).toNat : Rat)) * (2 : Rat) ^ (-150 : Int) := by
    rw [wordValue, abs_scaledValue_toRat, (classOf_eq_expZero_iff w).mp h]
    rfl
  have hq : |(-1 : Rat) ^ (signOf w).toNat * ((mantissaOf w).toNat : Rat) * (2 : Rat) ^ (-149 : Int)| =
      ((mantissaOf w).toNat : Rat) * (2 : Rat) ^ (-149 : Int) := by
    rw [mul_assoc, abs_mul, abs_pow, abs_neg, abs_one, one_pow, one_mul]
    exact abs_of_nonneg (by positivity)
  refine ⟨_, hieee, ?_⟩
  rw [hvalue, hq, hunit]
  ring

/-- The two differ for every word of exponent field 0: a mantissa is below `2^23`. -/
theorem ieee32Value_ne_of_expZero {w : Word} (h : classOf w = .expZero) :
    ieee32Value w ≠ some (wordValue w).toRat := by
  obtain ⟨q, hq, hdiff⟩ := ieee32Value_of_expZero h
  have hm : ((mantissaOf w).toNat : Rat) < 2 ^ 23 := by exact_mod_cast (mantissaOf w).isLt
  have hpos : 0 < (2 ^ 23 - ((mantissaOf w).toNat : Rat)) * (2 : Rat) ^ (-150 : Int) :=
    mul_pos (sub_pos.mpr hm) (by positivity)
  rw [hq]
  intro heq
  rw [Option.some.inj heq, sub_self] at hdiff
  exact hpos.ne hdiff

/-- Settles O34: for a NORMAL word the two numbers are one, for exponent field 0 they differ, and for 255 IEEE-754 assigns
no number. -/
theorem normalWordsMeetIeee754 : Obligations.NormalWordsMeetIeee754 := by
  rintro s w hle rfl
  obtain ⟨t, hexec, -, hv, -⟩ := exec_decode_fieldWord hle
  refine ⟨t, hexec, fun hieee => ?_, fun hnormal => hv ▸ ieee32Value_of_normal hnormal⟩
  rw [hv] at hieee
  cases hclass : classOf (s.mem.fieldWord s.offset) with
  | normal => rfl
  | expZero => exact absurd hieee (ieee32Value_ne_of_expZero hclass)
  | expOnes =>
    unfold ieee32Value at hieee
    rw [hclass] at hieee
    cases hieee

/-! ### The generic formula at both ends (R97) -/

/-- The magnitude of a word of exponent field 0 lies in the binade of -127. -/
theorem abs_wordValue_of_expZero {w : Word} (h : classOf w = .expZero) :
    (2 : Rat) ^ (-127 : Int) ≤ |(wordValue w).toRat| ∧ |(wordValue w).toRat| < (2 : Rat) ^ (-126 : Int) := by
  have hbinade := abs_wordValue_binade w
  rwa [(classOf_eq_expZero_iff w).mp h] at hbinade

/-- The magnitude of a word of exponent field 255 lies in the binade of 128. -/
theorem abs_wordValue_of_expOnes {w : Word} (h : classOf w = .expOnes) :
    2 ^ 128 ≤ |(wordValue w).toRat| ∧ |(wordValue w).toRat| < 2 ^ 129 := by
  have hbinade := abs_wordValue_binade w
  rwa [(classOf_eq_expOnes_iff w).mp h] at hbinade

/-- The value of a word written out by its fields. -/
theorem wordValue_encodeB32 (sg : BitVec 1) (e : BitVec 8) (m : BitVec 23) :
    (wordValue (encodeB32 sg e m)).toRat =
      (-1 : Rat) ^ sg.toNat * (1 + (m.toNat : Rat) / 2 ^ 23) * (2 : Rat) ^ ((e.toNat : Int) - 127) := by
  rw [wordValue_fraction, signOf_encodeB32, expFieldOf_encodeB32, mantissaOf_encodeB32]

/-- Settles O33: DECODE drives the value of the word by the one formula, whatever the class; the clauses are that formula
at exponent fields 0 and 255. -/
theorem extremeExponentsUseFormula : Obligations.ExtremeExponentsUseFormula := by
  rintro s w hle rfl
  refine ⟨_, exec_decode_wordWires hle, ?_⟩
  simp only [State.drive_wires, wordWires_signMul, wordWires_mantissa, wordWires_v]
  generalize s.mem.fieldWord s.offset = w
  refine ⟨fun hclass => ?_, fun hclass => ?_, ?_, ?_, ?_, ?_⟩
  · obtain ⟨hlo, hhi⟩ := abs_wordValue_of_expZero hclass
    refine ⟨?_, hlo, hhi, ieee32Value_of_expZero hclass⟩
    rw [wordValue_closed, (classOf_eq_expZero_iff w).mp hclass]
    rfl
  · obtain ⟨hlo, hhi⟩ := abs_wordValue_of_expOnes hclass
    refine ⟨?_, hlo, hhi⟩
    rw [wordValue_closed, (classOf_eq_expOnes_iff w).mp hclass]
    rfl
  · rintro rfl
    exact (wordValue_encodeB32 0#1 0#8 0#23).trans (by norm_num)
  · rintro rfl
    exact (wordValue_encodeB32 1#1 0#8 0#23).trans (by norm_num)
  · rintro rfl
    exact (wordValue_encodeB32 0#1 255#8 0#23).trans (by norm_num)
  · rintro rfl
    exact (wordValue_encodeB32 0#1 255#8 0x400000#23).trans (by norm_num)

end Sys2Proof.Machine
end

section
/-! PROOFS. Steps with new inputs as functions of the inputs alone (R10, R25, R42, R141): both decoders drive the wires of
the word that the bytes presented hold, so what a host finds does not depend on the state before. -/

namespace Sys2Proof.Machine

/-- Every operation of FDEC, used with new inputs inside the contract, leaves the wires of their word (R141). -/
theorem step_fdec_wordWires {s : State} {op : Operation} {bytes : List Byte} {off : Option Nat}
    {rest : List Invocation} (hop : op ≠ .uplink) (h : s.pending = ⟨op, some ⟨bytes, off⟩⟩ :: rest)
    (hlen : off.getD 0 + 4 ≤ bytes.length) :
    ∃ t, step s = .next t ∧ t.wires = wordWires ((Memory.ofBytes bytes).fieldWord (off.getD 0)) ∧
      t.mem = Memory.ofBytes bytes ∧ t.offset = off.getD 0 ∧ t.result = none ∧ t.pending = rest := by
  refine ⟨_, step_fdec_of_le hop h hlen, ?_, State.putInputs_mem _ _ _, ?_, State.putInputs_result _ _ _,
    State.putInputs_pending _ _ _⟩
  · rw [present_wires_of_le hop hlen State.resetWires, decodeField_eq_wordWires, Memory.fieldWord_eq_assembleWord]
  · exact (State.putInputs_offset _ _ _).trans (offsetPort_of_ne hop _ _)

/-- Settles O47: the wires left are those of the word whose bytes the inputs hold. -/
theorem fdecOutputsFollowInputs : Obligations.FdecOutputsFollowInputs := by
  intro s op bytes off rest w hop hpending hw
  obtain ⟨t, hstep, hwires, hmem, hoffset, hresult, hrest⟩ :=
    step_fdec_wordWires hop hpending (le_length_of_take_eq_encodePayload4 hw)
  rw [Memory.fieldWord_ofBytes hw] at hwires
  refine ⟨t, hstep, ?_, ?_, ?_, hoffset, hresult, hrest⟩
  · rw [hwires, wordWires_bits]
  · rw [hwires]
    exact wordWires_carriesWord w
  · rw [hmem, Memory.toBytes_ofBytes]

/-! ### UPLINK with new inputs (R111, R112) -/

/-- UPLINK on a payload of at least 4 bytes leaves the wires of its first word in UADP's decoder. -/
theorem step_uplink_wordWires {s : State} {bytes : List Byte} {off : Option Nat} {rest : List Invocation}
    (h : s.pending = ⟨.uplink, some ⟨bytes, off⟩⟩ :: rest) (hlen : 4 ≤ bytes.length) :
    step s =
      .next ((State.present { s with pending := rest } ⟨.uplink, some ⟨bytes, off⟩⟩).driveAdapter
        (wordWires ((Memory.ofBytes bytes).fieldWord 0))).reportValue := by
  rw [step_uplink_of_le h hlen, decodeField_eq_wordWires, Memory.fieldWord_eq_assembleWord]

/-- Settles O41: the length decides which of the two forms is reported; the presented payload, the queue and FDEC's offset
port outlive either report. -/
theorem uplinkIsTotal : Obligations.UplinkIsTotal := by
  intro s bytes off rest hpending
  obtain hlt | hle := Nat.lt_or_ge bytes.length 4
  · refine ⟨_, _, _, step_uplink_of_lt hpending hlt, rfl, rfl, ?_⟩
    simp [Result.okPort, Result.errPort, hlt]
  · have hdecode := exec_decode_wordWires (s := { s with mem := Memory.ofBytes bytes, offset := 0 })
      (show 0 + 4 ≤ bytes.length by omega)
    refine ⟨_, _, _, step_uplink_wordWires hpending hle, rfl, rfl, ?_⟩
    simp [Result.okPort, Result.errPort, hle, hdecode]

/-! ### Programs (R10, R42, R126, R150) -/

section calls
variable {c : HostCall} {s : State} (cs : List HostCall)

theorem results_cons_of_next {t : State} (h : step { s with pending := [HostCall.invocation c] } = .next t) :
    results (c :: cs) s = HostCall.response c t :: results cs t := by
  rw [results, h]

theorem results_cons_of_refused {r : Refusal}
    (h : step { s with pending := [HostCall.invocation c] } = .refused r) : results (c :: cs) s = none :: results cs s := by
  rw [results, h]

end calls

/-- What a host finds for a call, as a function of the call alone. -/
def callResponse : HostCall → Option Response
  | .decode buffer off =>
    if off.getD 0 + 4 ≤ buffer.length then
      some (.decoded (decoderOutputs (wordWires ((Memory.ofBytes buffer).fieldWord (off.getD 0)))))
    else none
  | .handleUplink bytes =>
    some (.uplink (if 4 ≤ bytes.length then .ok (wordValue ((Memory.ofBytes bytes).fieldWord 0))
      else .err ["Not enough bytes for float"]))

theorem callResponse_decode_of_le {buffer : List Byte} {off : Option Nat} (h : off.getD 0 + 4 ≤ buffer.length) :
    callResponse (.decode buffer off) =
      some (.decoded (decoderOutputs (wordWires ((Memory.ofBytes buffer).fieldWord (off.getD 0))))) := if_pos h

theorem callResponse_decode_of_lt {buffer : List Byte} {off : Option Nat} (h : buffer.length < off.getD 0 + 4) :
    callResponse (.decode buffer off) = none := if_neg (Nat.not_le.mpr h)

theorem callResponse_handleUplink_of_le {bytes : List Byte} (h : 4 ≤ bytes.length) :
    callResponse (.handleUplink bytes) = some (.uplink (.ok (wordValue ((Memory.ofBytes bytes).fieldWord 0)))) := by
  rw [callResponse, if_pos h]

theorem callResponse_handleUplink_of_lt {bytes : List Byte} (h : bytes.length < 4) :
    callResponse (.handleUplink bytes) = some (.uplink (.err ["Not enough bytes for float"])) := by
  rw [callResponse, if_neg (Nat.not_le.mpr h)]

/-- Whatever the state, a call gives its response; only the state in which the next call is made is left open. -/
theorem results_cons (c : HostCall) (cs : List HostCall) (s : State) :
    ∃ s', results (c :: cs) s = callResponse c :: results cs s' := by
  cases c with
  | decode buffer off =>
    obtain hlt | hle := Nat.lt_or_ge buffer.length (off.getD 0 + 4)
    · rw [callResponse_decode_of_lt hlt]
      exact ⟨s, results_cons_of_refused cs (step_decode_of_lt rfl hlt)⟩
    · obtain ⟨t, hstep, hwires, -⟩ := step_fdec_wordWires
        (s := { s with pending := [HostCall.invocation (.decode buffer off)] }) (by decide) rfl hle
      rw [callResponse_decode_of_le hle, ← hwires]
      exact ⟨t, results_cons_of_next cs hstep⟩
  | handleUplink bytes =>
    obtain hlt | hle := Nat.lt_or_ge bytes.length 4
    · rw [callResponse_handleUplink_of_lt hlt]
      exact ⟨_, results_cons_of_next cs (step_uplink_of_lt rfl hlt)⟩
    · rw [callResponse_handleUplink_of_le hle, ← wordWires_v]
      exact ⟨_, results_cons_of_next cs (step_uplink_wordWires rfl hle)⟩

/-- A program's results are the responses of its calls, from every state. -/
theorem results_eq_map (calls : List HostCall) (s : State) : results calls s = calls.map callResponse := by
  induction calls generalizing s with
  | nil => rfl
  | cons c cs ih =>
    obtain ⟨s', h⟩ := results_cons c cs s
    rw [h, ih, List.map_cons]

theorem results_singleton (c : HostCall) (s : State) : results [c] s = [callResponse c] := results_eq_map [c] s

/-- Settles O44: on both sides stands the list of the calls' responses. -/
theorem callsAreIndependent : Obligations.CallsAreIndependent := by
  intro calls s
  simp only [results_eq_map, List.map_cons, List.map_nil]
  exact List.map_eq_flatMap

/-- Settles O45: the response of a single call, by what the wires of the word at the offset carry. -/
theorem singleCallResponses : Obligations.SingleCallResponses := by
  refine ⟨fun buffer off s => ⟨fun hlt => ?_, fun hle =>
    ⟨decoderOutputs (wordWires ((Memory.ofBytes buffer).fieldWord (off.getD 0))), ?_, fun w hw => ?_, ?_,
      fun hle' hoff => ?_⟩⟩, fun bytes s hlt => ?_⟩
  · rw [results_singleton, callResponse_decode_of_lt hlt]
  · rw [results_singleton, callResponse_decode_of_le hle]
  · rw [Memory.fieldWord_ofBytes hw]
    exact wordWires_carriesWord w
  · simp only [decoderOutputs, wordWires_value64, wordWires_v]
    exact binary64Value_packed64_fields _
  · rw [results_singleton, callResponse_handleUplink_of_le hle', hoff, decoderOutputs, wordWires_v]
  · rw [results_singleton, callResponse_handleUplink_of_lt hlt]

end Sys2Proof.Machine
end
